-- ==== Sys2Proof/Word.lean ====
section
/-! DEFINITION. The two data types every file uses: the byte of memory and of the instruction stream, and the
value a register holds (00_scope.md R8). -/

namespace Sys2Proof

/-- A byte: what one memory cell holds and what the instruction stream is made of (R8, R12). -/
abbrev Byte := BitVec 8

/-- What a register holds (R8): a mathematical integer. With a finite register width the integers stored are those
in `0 .. 2^n - 1`; the width is applied where a register is written (`Machine.regNorm`), never by the type. -/
abbrev Value := Int

/-- `zext(b)` of R8: the byte taken as the value of the same magnitude, 0 to 255. -/
def zext (b : Byte) : Value := (b.toNat : Int)

end Sys2Proof
end

