-- ==== Sys2Proof/Config.lean ====
section
/-! DEFINITION. The implementation parameters of 00_scope.md R6: their types, and, for those the spec leaves
without a value, an uninterpreted constant. The defaults the model runs with stand in Machine/Parameters.lean. -/

namespace Sys2Proof
namespace Config

/-- Parameter `REGW` (R6, decision D1): `inf` for mathematical integers, or a bit count. -/
inductive RegWidth where
  | inf
  | bits (n : Nat)
deriving DecidableEq, Repr

/-- A choice of the two parameters of R6 that the machine's behaviour depends on and that have a default:
the register width `REGW` and the opcode byte of MUL, `OPC_MUL`. -/
structure Params where
  regWidth : RegWidth
  opcMul   : Byte
deriving DecidableEq, Repr

/-- Parameter `REG_INIT` (R6, R26, decision D4): the register values after construction, about which the spec says
nothing may be assumed. No body: nothing in Lean can evaluate it (log entry 1). -/
opaque regInit : Nat → Value

/-- Parameter `ALU_DIV` (R6, R105, decision D9): the quotient of a division that is not exact; it depends on the two
operands alone. No body (log entry 2). -/
opaque aluDiv : Value → Value → Value

/-- Parameter `DIAG_TEXT` (R6, decision D10): the text of the unknown-opcode diagnostic, which identifies the byte.
No body (log entry 3). -/
opaque diagText : Byte → String

end Config
end Sys2Proof
end

