-- ==== Sys2Proof/Machine/Parameters.lean ====
section
/-! DEFINITION. The values of the parameters: the opcode bytes of 00_scope.md R5, and the defaults of R6 the
model runs with. They stand here, and not in Config.lean, so that each can be mended alone. -/

namespace Sys2Proof.Machine

/-- `OPC_LDI` (R5). -/
def opcLdi : Byte := 0x82

/-- `OPC_PRN` (R5). -/
def opcPrn : Byte := 0x47

/-- `OPC_HLT` (R5). -/
def opcHlt : Byte := 0x01

/-- `OPC_MUL`, at its default (R6, decision D5). PRESUMED by the spec itself, from general knowledge (log entry 5). -/
def opcMul : Byte := 0xA2

/-- `REGW`, at its default: unbounded integers (R6, decision D1; log entry 6). -/
def regWidth : Config.RegWidth := .inf

/-- The parameters the machine `Machine.step` runs with. -/
def defaultParams : Config.Params := { regWidth := regWidth, opcMul := opcMul }

/-- What R6 asks of `OPC_MUL`: it differs from the three other opcode bytes. -/
def opcMulLegal (opc : Byte) : Bool := opc != opcLdi && opc != opcPrn && opc != opcHlt

/-- What R6 asks of `REGW`: `inf`, or a bit count of at least 8. -/
def regWidthLegal : Config.RegWidth → Bool
  | .inf => true
  | .bits n => decide (8 ≤ n)

/-- The byte is one of the four opcode constants, with `OPC_MUL` the byte `opc` (R55, R58). -/
def isOpcode (opc b : Byte) : Bool := b == opcLdi || b == opcPrn || b == opc || b == opcHlt

/-- `norm(v)` of R8: `v` itself with `REGW = inf`, the non-negative remainder modulo `2^n` with `REGW = n`. -/
def regNorm : Config.RegWidth → Value → Value
  | .inf, v => v
  | .bits n, v => v % (2 ^ n : Int)

/-- The eight register values after construction: `REG_INIT`, unspecified (R26, decision D4; log entry 1). -/
def resetRegs : Vector Value 8 :=
  #v[Config.regInit 0, Config.regInit 1, Config.regInit 2, Config.regInit 3,
     Config.regInit 4, Config.regInit 5, Config.regInit 6, Config.regInit 7]

end Sys2Proof.Machine
end

