-- ==== Sys2Proof/Syntax.lean ====
section
/-! DEFINITION. The instructions of the CA-4 set: one constructor per row of spec/opcode_table.json, with its
operands in the order of their bytes (30_encoding.md R51, R55). -/

namespace Sys2Proof

/-- An instruction. A register operand is the WHOLE byte that was read (R53), not a number below 8: a byte of 8 or
more is a legal encoding, whose register access raises `InvalidRegister`. -/
inductive Instr where
  /-- `LDI r v`: load immediate (R90). -/
  | ldi (r v : Byte)
  /-- `PRN r`: print register (R95). -/
  | prn (r : Byte)
  /-- `MUL a b`: multiply (R100). -/
  | mul (a b : Byte)
  /-- `HLT`: halt (R115). -/
  | hlt
  /-- The action for a byte that is no opcode; the byte is its only input (R118). -/
  | unknown (b : Byte)
deriving DecidableEq, Repr

end Sys2Proof
end

