-- ==== Sys2Proof/WellFormed.lean ====
section
/-! DEFINITION. Which instructions the encoding can express. The one check: the byte of `unknown` is none of the
four opcodes (30_encoding.md R58). Every register byte and every immediate is expressible (R52, R53). -/

namespace Sys2Proof

/-- The instruction is expressible when `OPC_MUL` is the byte `opc`. -/
def Instr.wfAt (opc : Byte) : Instr → Bool
  | .ldi _ _ => true
  | .prn _ => true
  | .mul _ _ => true
  | .hlt => true
  | .unknown b => !Machine.isOpcode opc b

/-- The instruction is expressible with the default `OPC_MUL`. -/
def Instr.wf (i : Instr) : Bool := i.wfAt Machine.opcMul

/-- Every register byte of the instruction names a register, that is, lies in 0..7 (the legal values of R52). -/
def Instr.regsLegal : Instr → Bool
  | .ldi r _ => decide (r.toNat < 8)
  | .prn r => decide (r.toNat < 8)
  | .mul a b => decide (a.toNat < 8) && decide (b.toNat < 8)
  | .hlt => true
  | .unknown _ => true

end Sys2Proof
end

