-- ==== Sys2Proof/Decode.lean ====
section
/-! DEFINITION. The instruction_decoder (40_execution_cycle.md R73) and the encoding it reads
(30_encoding.md R50 to R58): the decoder, total on any bytes, then the encoder. Both take `OPC_MUL` as an argument;
the names without `At` use its default. -/

namespace Sys2Proof

/-- What the decoder names (R73). -/
inductive Kind where
  | ldi
  | prn
  | mul
  | hlt
  | unknown
deriving DecidableEq, Repr

/-- `decode(op)` of R73: the whole byte is compared with each opcode constant, in the order the rule lists them. -/
def decodeKind (opc op : Byte) : Kind :=
  if op = Machine.opcLdi then .ldi
  else if op = Machine.opcPrn then .prn
  else if op = opc then .mul
  else if op = Machine.opcHlt then .hlt
  else .unknown

/-- The operand count the decoder gives with the kind (R55, R73). -/
def Kind.operandCount : Kind → Nat
  | .ldi => 2
  | .prn => 1
  | .mul => 2
  | .hlt => 0
  | .unknown => 0

/-- The kind of an instruction. -/
def Instr.kind : Instr → Kind
  | .ldi _ _ => .ldi
  | .prn _ => .prn
  | .mul _ _ => .mul
  | .hlt => .hlt
  | .unknown _ => .unknown

/-- The instruction's length in bytes: one more than its operand count (R50, R57). -/
def Instr.length (i : Instr) : Nat := 1 + i.kind.operandCount

/-- Reads one instruction through a reader of its bytes (`rd k` is the byte at offset `k`): the opcode byte, then
exactly the operand bytes that kind has, in ascending order (R74). The first read that fails is the answer. It is the
one decoder: fetch_unit reads through the Memory with it (Machine/Cycle.lean), `decodeAt` through a list. -/
def readInstr {ε : Type} (opc : Byte) (rd : Nat → Except ε Byte) : Except ε Instr := do
  let op ← rd 0
  match decodeKind opc op with
  | .ldi => do
    let r ← rd 1
    let v ← rd 2
    pure (.ldi r v)
  | .prn => do
    let r ← rd 1
    pure (.prn r)
  | .mul => do
    let a ← rd 1
    let b ← rd 2
    pure (.mul a b)
  | .hlt => pure .hlt
  | .unknown => pure (.unknown op)

/-- Why a list of bytes holds no instruction: it ends too early. There is no other reason, since every byte value is
an opcode or an unknown opcode (R58). -/
inductive DecodeError where
  /-- There is no opcode byte. -/
  | noOpcode
  /-- The operand byte at this offset from the opcode is missing. -/
  | noOperand (offset : Nat)
deriving DecidableEq, Repr

/-- The reader of a list of bytes. -/
def byteOf (bs : List Byte) (k : Nat) : Except DecodeError Byte :=
  match bs[k]? with
  | some b => .ok b
  | none => .error (if k = 0 then .noOpcode else .noOperand k)

/-- Decodes the first instruction of a list of bytes, with `OPC_MUL` the byte `opc`; answers it with the bytes that
follow it. -/
def decodeAt (opc : Byte) (bs : List Byte) : Except DecodeError (Instr × List Byte) :=
  match readInstr opc (byteOf bs) with
  | .ok i => .ok (i, bs.drop i.length)
  | .error e => .error e

/-- Decodes with the default `OPC_MUL`. -/
def decode (bs : List Byte) : Except DecodeError (Instr × List Byte) := decodeAt Machine.opcMul bs

/-- The bytes of an instruction, in ascending address order (R51), with `OPC_MUL` the byte `opc`. -/
def encodeAt (opc : Byte) : Instr → List Byte
  | .ldi r v => [Machine.opcLdi, r, v]
  | .prn r => [Machine.opcPrn, r]
  | .mul a b => [opc, a, b]
  | .hlt => [Machine.opcHlt]
  | .unknown b => [b]

/-- Encodes with the default `OPC_MUL`. -/
def encode (i : Instr) : List Byte := encodeAt Machine.opcMul i

/-- The bytes of a word numbered as spec/opcode_table.json numbers it (bit 0 the least significant bit of the first
byte), up to the longest instruction; the bits above `nbits` are 0. -/
def tableWordBytes (nbits w : Nat) : List Byte :=
  [BitVec.ofNat 8 (w % 2 ^ nbits), BitVec.ofNat 8 (w % 2 ^ nbits / 256), BitVec.ofNat 8 (w % 2 ^ nbits / 65536)]

/-- The instruction the decoder reads from such a word. -/
def decodeTableWord (nbits w : Nat) : Option Instr :=
  match decode (tableWordBytes nbits w) with
  | .ok (i, _) => some i
  | .error _ => none

end Sys2Proof
end

