-- ==== Sys2Proof/Machine/State.lean ====
section
/-! DEFINITION. The state of the machine: the tuple of 10_state.md R11 and nothing else, as plain data; the reasons a
step can stop; and the state after construction (R26). -/

namespace Sys2Proof.Machine

/-- The Memory (R12): the cells that do not hold 0, as (address, byte) pairs in the canonical form of `Memory.wf`. -/
abbrev Memory := List Host.Cell

/-- The alu's operation selector (R106, decision D16): symbolic, the four names and every other one. -/
inductive AluOp where
  | add
  | sub
  | mul
  | div
  | other (name : String)
deriving DecidableEq, Repr

/-- The fatal error kinds, each with the information it records (R125). -/
inductive FatalKind where
  /-- A memory access outside 0..255; the address asked (R126). -/
  | outOfBounds (addr : Nat)
  /-- A register index outside 0..7; the index asked (R127). -/
  | invalidRegister (idx : Nat)
  /-- The alu was asked for an operation outside its four; the selector (R128). -/
  | unsupportedOperation (op : AluOp)
  /-- The alu's division with a zero divisor (R130). -/
  | divideByZero
deriving DecidableEq, Repr

/-- The Execution Engine's state (R19). -/
inductive Engine where
  /-- Constructed, not yet run. -/
  | idle
  /-- A run is going on. -/
  | running
  /-- The normal end of a run, through HLT. -/
  | halted
  /-- The abort of a run by a fatal error (R131). -/
  | faulted (k : FatalKind)
deriving DecidableEq, Repr

/-- A record of the diagnostic channel (R22): the unrecognized byte. -/
inductive Diagnostic where
  | unknownOpcode (b : Byte)
deriving DecidableEq, Repr

/-- The whole state (R11). -/
structure State where
  /-- The Memory: 256 byte cells (R12). -/
  mem     : Memory
  /-- The Register File: eight values (R13). -/
  reg     : Vector Value 8
  /-- The Program Counter: a natural number, unbounded, never wrapping (R16). -/
  pc      : Nat
  /-- The Running flag (R18). -/
  running : Bool
  /-- The engine state (R19). -/
  engine  : Engine
  /-- The output channel, oldest first (R21). -/
  out     : List Value
  /-- The diagnostic channel, oldest first (R22). -/
  diag    : List Diagnostic
deriving DecidableEq, Repr

/-- Why a step ends in a fault. -/
inductive Fault where
  /-- The engine is `Faulted`: no further step is ever taken by it (R131). Raised by `step` alone, when it is asked
  for a step of such an engine; the fault itself was the step before, a next state that holds the reason. SAFE: the
  spec gives this state no step. -/
  | engineFaulted (k : FatalKind)
deriving DecidableEq, Repr

/-- Why the machine has no meaning for what it is asked. -/
inductive Refusal where
  /-- An instruction without a meaning, by its mnemonic in spec/opcode_table.json; raised only by an arm of `exec`
  that says so (at present none does). SAFE. -/
  | notModelled (mnemonic : String)
  /-- The host calls `run()` while the engine is `Running`: it cannot happen, there is one thread (R70), and the spec
  says nothing of it; the refusal is the model's own (DESIGN CHOICE, log entry 19). Raised by `hostRun`. SAFE. -/
  | runWhileRunning
  /-- The host calls `run()` on a `Faulted` engine: refused (R70, decision D14). Raised by `hostRun`. SAFE. -/
  | runAfterFault (k : FatalKind)
  /-- The host loads a program although the engine is not `Idle` (the precondition of R44). Raised by `load`. SAFE. -/
  | loadNotIdle
  /-- The load raised this error (a program of more than 256 bytes), so the launch is refused (R44, decision D15).
  Raised by `load`. SAFE. -/
  | launchRefused (k : FatalKind)
deriving DecidableEq, Repr

/-- What a meaning, a step or a request of the host answers. -/
abbrev Result := Host.Outcome State Fault Refusal

/-- The state after construction (R26, R150) with these register values. DESIGN CHOICE (log entry 18): any eight
integers are taken, also where a finite `REGW = n` has the `Value`s 0 to 2^n-1 alone (R8); the constructed states of a
machine with that width are those of `State.resetAt`. -/
def State.resetWith (init : Vector Value 8) : State :=
  { mem := [], reg := init, pc := 0, running := false, engine := .idle, out := [], diag := [] }

/-- The state after construction (R26, R150); the register values are `REG_INIT`. -/
def State.reset : State := State.resetWith resetRegs

end Sys2Proof.Machine
end

