-- ==== Sys2Proof/Machine/Memory.lean ====
section
/-! DEFINITION. The Memory as a list of cells in one canonical form: what a cell reads as, storing a byte in a cell,
and the canonical form (10_state.md R12, 20_memory.md R31). The bounds are checked by the access primitives of
Ops.lean. -/

namespace Sys2Proof.Machine

/-- What a cell that the list does not name reads as: 0, since the Memory is created zero-filled (R12, R26). -/
def unlisted : Byte := 0

/-- The canonical form: addresses strictly rising, all below 256, and no listed cell equal to an unlisted one. -/
abbrev Memory.wf (m : Memory) : Prop :=
  m.Pairwise (fun c d => c.1 < d.1) ∧ ∀ c ∈ m, c.1 < 256 ∧ c.2 ≠ unlisted

/-- The byte in the cell at address `a`. -/
def Memory.get : Memory → Nat → Byte
  | [], _ => unlisted
  | c :: m, a => if c.1 = a then c.2 else Memory.get m a

/-- A cell in front of a list, unless it equals an unlisted one. -/
def Memory.cons (a : Nat) (v : Byte) (m : Memory) : Memory := if v = unlisted then m else (a, v) :: m

/-- The memory with the byte `v` in the cell at address `a`. -/
def Memory.put : Memory → Nat → Byte → Memory
  | [], a, v => Memory.cons a v []
  | c :: m, a, v =>
    if a < c.1 then Memory.cons a v (c :: m)
    else if a = c.1 then Memory.cons a v m
    else c :: Memory.put m a v

/-- The bytes of the cells from address `a` to the end of the Memory at 255, in ascending order. -/
def Memory.bytesFrom (m : Memory) (a : Nat) : List Byte := (List.range' a (256 - a)).map m.get

end Sys2Proof.Machine
end

