-- ==== Sys2Proof/Machine/Ops.lean ====
section
/-! DEFINITION. The named operations over memory and registers, the raising of a fatal error, and the update of the
program counter, each written once (00_scope.md R8, 20_memory.md R32, R33, 40_execution_cycle.md R76,
60_exceptions.md R131). -/

namespace Sys2Proof.Machine

/-- `MemRead(a, 1)` (R32). -/
def memRead (a : Nat) (s : State) : Except FatalKind Byte :=
  if a < 256 then .ok (s.mem.get a) else .error (.outOfBounds a)

/-- `MemWrite(a, 1, v)` (R33): stores `v mod 256` (decision D8) and answers the stored byte with the new state. -/
def memWrite (a : Nat) (v : Int) (s : State) : Except FatalKind (Byte × State) :=
  if a < 256 then .ok (BitVec.ofInt 8 v, { s with mem := s.mem.put a (BitVec.ofInt 8 v) })
  else .error (.outOfBounds a)

/-- `x[i]` (R8, R13): reads register `i`. -/
def readReg (i : Nat) (s : State) : Except FatalKind Value :=
  if h : i < 8 then .ok s.reg[i] else .error (.invalidRegister i)

/-- `x[i] <- v` (R8, R13) with register width `w`: register `i` becomes `norm(v)`. -/
def writeReg (w : Config.RegWidth) (i : Nat) (v : Value) (s : State) : Except FatalKind State :=
  if h : i < 8 then .ok { s with reg := s.reg.set i (regNorm w v) } else .error (.invalidRegister i)

/-- `out <- out ++ [v]` (R8, R21). -/
def emit (v : Value) (s : State) : State := { s with out := s.out ++ [v] }

/-- `diag <- diag ++ [UnknownOpcode(b)]` (R8, R22). -/
def report (b : Byte) (s : State) : State := { s with diag := s.diag ++ [.unknownOpcode b] }

/-- `pc <- pc + n` on natural numbers, with no wrap and no check (R76). -/
def advance (n : Nat) (s : State) : State := { s with pc := s.pc + n }

/-- TAKING A FATAL ERROR (R131): `engine <- Faulted(K, info)`. Nothing is saved and nothing else changes: the pc stays
at the opcode byte of the faulting instruction, the running flag stays, and there is no handler to go to. (There is no
return from one either, R135.) -/
def raise (k : FatalKind) (s : State) : State := { s with engine := .faulted k }

/-- The end of an instruction's action on the state `s`: its result, or the fatal error it raised, taken in `s` itself,
so that an instruction that raises one has changed nothing else (R132). -/
def attempt (s : State) (r : Except FatalKind State) : Result :=
  match r with
  | .ok t => .next t
  | .error k => .next (raise k s)

end Sys2Proof.Machine
end

