-- ==== Sys2Proof/Machine/Flags.lean ====
section
/-! DEFINITION. The flags. The hardware has no condition codes (10_state.md R23); the one thing the spec calls a flag
is the running flag (R18), set by `run()` and cleared by HLT. -/

namespace Sys2Proof.Machine

/-- `running <- b` (R8). -/
def setRunning (b : Bool) (s : State) : State := { s with running := b }

end Sys2Proof.Machine
end

