-- ==== Sys2Proof/Machine/Cycle.lean ====
section
/-! DEFINITION. The execution cycle (40_execution_cycle.md): fetch_unit, the pass of the loop, the loop test, one step
of the machine, and the whole of `run()`. Each takes `OPC_MUL` and the meaning of the instructions as arguments;
Step.lean, Run.lean and Parametric.lean supply them. -/

namespace Sys2Proof.Machine

/-- fetch_unit with the decoder (R72, R73, R74): the opcode byte at `pc`, then the operand bytes that instruction has at
`pc+1` and `pc+2`, on natural numbers with no wrap. The first read outside the Memory is the error. -/
def fetchInstr (opc : Byte) (s : State) : Except FatalKind Instr :=
  readInstr opc (fun k => memRead (s.pc + k) s)

/-- One pass of the loop, `step()` of R71: fetch, decode, dispatch. -/
def loopPass (opc : Byte) (ex : Instr → State → Result) (s : State) : Result :=
  match fetchInstr opc s with
  | .ok i => ex i s
  | .error k => .next (raise k s)

/-- What `run()` does before its loop (R70). -/
def enterRun (s : State) : State := { setRunning true s with engine := .running }

/-- What `run()` does after its loop (R70, R77): a `Running` engine whose running flag is false is `Halted`. -/
def loopExit (s : State) : State :=
  if s.engine = .running ∧ s.running = false then { s with engine := .halted } else s

/-- A result with `loopExit` applied to its next state. -/
def closeLoop : Result → Result
  | .next t => .next (loopExit t)
  | .fault f => .fault f
  | .refused r => .refused r

/-- The state in which the next pass of the loop runs: an engine that is not running first enters the run that the
host's call of `run()` starts (R70; log entry 7). -/
def beginPass (s : State) : State :=
  match s.engine with
  | .idle => enterRun s
  | .halted => enterRun s
  | .running => s
  | .faulted _ => s

/-- One step of the machine: the host's `run()` where the engine is not running, one pass of the loop, and the loop
test after it. A `Faulted` engine has no step (R131). -/
def cycle (opc : Byte) (ex : Instr → State → Result) (s : State) : Result :=
  match s.engine with
  | .faulted k => .fault (.engineFaulted k)
  | .idle | .running | .halted =>
    if (beginPass s).running then closeLoop (loopPass opc ex (beginPass s))
    else .next (loopExit (beginPass s))

/-- The loop of R70, for at most `fuel` passes: `while running = true and engine = Running: step()`. -/
def loopFor (opc : Byte) (ex : Instr → State → Result) : Nat → State → Result
  | 0, s => .next s
  | fuel + 1, s =>
    if s.running = true ∧ s.engine = .running then
      match loopPass opc ex s with
      | .next t => loopFor opc ex fuel t
      | .fault f => .fault f
      | .refused r => .refused r
    else .next s

/-- `run()` as the host calls it (R70): the whole run, to its end. The 257 passes are the bound of R79: no run takes
more. -/
def hostRun (opc : Byte) (ex : Instr → State → Result) (s : State) : Result :=
  match s.engine with
  | .idle | .halted => closeLoop (loopFor opc ex 257 (enterRun s))
  | .running => .refused .runWhileRunning
  | .faulted k => .refused (.runAfterFault k)

end Sys2Proof.Machine
end

