-- ==== Sys2Proof/Machine/Operands.lean ====
section
/-! DEFINITION. The two operand forms of the hardware (30_encoding.md R52 to R54): a register byte, and the immediate
of LDI. There are no others. -/

namespace Sys2Proof.Machine

/-- A register operand is the whole byte as an unsigned number; it is not reduced modulo 8 (R53, decision D21). -/
def regIndex (b : Byte) : Nat := b.toNat

/-- The value of the register a register operand names. -/
def regOperand (b : Byte) (s : State) : Except FatalKind Value := readReg (regIndex b) s

/-- The value of the immediate operand: `zext(imm8)` (R54). -/
def immOperand (b : Byte) : Value := zext b

end Sys2Proof.Machine
end

