-- ==== Sys2Proof/Machine/Alu.lean ====
section
/-! DEFINITION. The alu unit and MUL (43_mul_alu.md). -/

namespace Sys2Proof.Machine

/-- `apply(operation, a_value, b_value)` (R101 to R106): a pure function on unbounded integers; the register width is
applied where the result is written, not here. Division is exact where it can be; where the divisor does not divide
the dividend the quotient is the free `Config.aluDiv` (R105, decision D9, log entry 2). -/
def aluApply (op : AluOp) (va vb : Value) : Except FatalKind Value :=
  match op with
  | .add => .ok (va + vb)
  | .sub => .ok (va - vb)
  | .mul => .ok (va * vb)
  | .div =>
    if vb = 0 then .error .divideByZero
    else if va % vb = 0 then .ok (va / vb)
    else .ok (Config.aluDiv va vb)
  | .other name => .error (.unsupportedOperation (.other name))

/-- The alu operation the decoder names with the kind (R73, R81). -/
def kindAluOp : Kind → Option AluOp
  | .mul => some .mul
  | .ldi => none
  | .prn => none
  | .hlt => none
  | .unknown => none

/-- The engine's use of the alu (R101, `90_conflicts.md` C5): read both registers in operand order, apply the
operation, write the result to the first. -/
def aluOnRegs (w : Config.RegWidth) (op : AluOp) (a b : Byte) (s : State) : Except FatalKind State := do
  let va ← regOperand a s
  let vb ← regOperand b s
  let v ← aluApply op va vb
  writeReg w (regIndex a) v s

/-- `exec_MUL` after its operand bytes were fetched, with register width `w` (R100). -/
def mulAt (w : Config.RegWidth) (a b : Byte) (s : State) : Result :=
  attempt s do
    let t ← aluOnRegs w .mul a b s
    pure (advance 3 t)

/-- MUL (R100). -/
def execMul (a b : Byte) (s : State) : Result := mulAt regWidth a b s

end Sys2Proof.Machine
end

