-- ==== Sys2Proof/Machine/Control.lean ====
section
/-! DEFINITION. HLT and the unknown-opcode action (44_hlt_unknown.md). -/

namespace Sys2Proof.Machine

/-- HLT (R115): clears the running flag and leaves the pc. The engine goes to `Halted` at the loop test that follows
(R70, R77; `loopExit` in Cycle.lean), in the same step. -/
def execHlt (s : State) : Result := .next (setRunning false s)

/-- The unknown-opcode action (R118): one diagnostic record, and a skip of exactly one byte. -/
def execUnknown (b : Byte) (s : State) : Result := .next (advance 1 (report b s))

end Sys2Proof.Machine
end

