-- ==== Sys2Proof/Machine/LoadImmediate.lean ====
section
/-! DEFINITION. LDI (41_ldi.md). -/

namespace Sys2Proof.Machine

/-- `exec_LDI` after its operand bytes were fetched, with register width `w` (R90). -/
def ldiAt (w : Config.RegWidth) (r v : Byte) (s : State) : Result :=
  attempt s do
    let t ← writeReg w (regIndex r) (immOperand v) s
    pure (advance 3 t)

/-- LDI (R90). -/
def execLdi (r v : Byte) (s : State) : Result := ldiAt regWidth r v s

end Sys2Proof.Machine
end

