-- ==== Sys2Proof/Machine/Output.lean ====
section
/-! DEFINITION. PRN (42_prn.md) and what the host sees of the two output channels. -/

namespace Sys2Proof.Machine

/-- PRN (R95). -/
def execPrn (r : Byte) (s : State) : Result :=
  attempt s do
    let v ← regOperand r s
    pure (advance 2 (emit v s))

/-- The character of a decimal digit. -/
def digitChar (d : Nat) : Char := Char.ofNat (48 + d)

/-- The decimal digits of a natural number, most significant first; the fuel bounds the number of digits. -/
def decDigits : Nat → Nat → List Char
  | 0, n => [digitChar (n % 10)]
  | fuel + 1, n => if n < 10 then [digitChar n] else decDigits fuel (n / 10) ++ [digitChar (n % 10)]

/-- The characters of `dec(v)` (R8). -/
def decChars : Value → List Char
  | .ofNat n => decDigits n n
  | .negSucc n => '-' :: decDigits (n + 1) (n + 1)

/-- `dec(v)` of R8: the decimal string of an integer. -/
def dec (v : Value) : String := String.ofList (decChars v)

/-- The lines of output the host sees, one for each element of `out` (R21). -/
def outLines (s : State) : List String := s.out.map dec

/-- The text of a diagnostic: the parameter `DIAG_TEXT` applied to its byte (R6, R22). -/
def diagnosticText : Diagnostic → String
  | .unknownOpcode b => Config.diagText b

end Sys2Proof.Machine
end

