-- ==== Sys2Proof/Machine/Dispatch.lean ====
section
/-! DEFINITION. Dispatch (40_execution_cycle.md R75): the decoded instruction selects exactly one action. -/

namespace Sys2Proof.Machine

def exec (i : Instr) (s : State) : Host.Outcome State Fault Refusal :=
  match i with
  | .ldi r v => Sys2Proof.Machine.execLdi r v s
  | .prn r => Sys2Proof.Machine.execPrn r s
  | .mul a b => Sys2Proof.Machine.execMul a b s
  | .hlt => Sys2Proof.Machine.execHlt s
  | .unknown b => Sys2Proof.Machine.execUnknown b s

end Sys2Proof.Machine
end

