-- ==== Sys2Proof/Machine/Step.lean ====
section
/-! DEFINITION. One step of the machine with the default parameters, and the placing of an instruction where the next
step fetches it. -/

namespace Sys2Proof.Machine

/-- One step (40_execution_cycle.md R70, R71): see `cycle`. -/
def step (s : State) : Host.Outcome State Fault Refusal := cycle opcMul exec s

/-- The state made ready for a pass of the loop: an engine that has no further pass is put back into a run. An engine
that is `Idle` or `Halted` is left alone, since its next step enters the run itself. -/
def State.armed (s : State) : State :=
  match s.engine with
  | .idle => s
  | .halted => s
  | .running => { s with running := true }
  | .faulted _ => { s with running := true, engine := .running }

/-- The bytes `bs` in the cells from address `a` on; what would lie past the end of the Memory is dropped. -/
def State.placeBytes : List Byte → Nat → State → State
  | [], _, s => s
  | b :: bs, a, s => State.placeBytes bs (a + 1) (if a < 256 then { s with mem := s.mem.put a b } else s)

/-- `s` with the table word `w` of `nbits` bits stored where the next step fetches its instruction. The pc is kept
where the instruction fits between it and the end of the Memory, and is 0 otherwise. -/
def State.withFetchWord (s : State) (nbits w : Nat) : State :=
  let n := match decodeTableWord nbits w with
    | some i => i.length
    | none => 3
  let t := if s.pc + n ≤ 256 then s.armed else { s.armed with pc := 0 }
  State.placeBytes (tableWordBytes nbits w) t.pc t

end Sys2Proof.Machine
end

