-- ==== Sys2Proof/Machine/HostCalls.lean ====
section
/-! DEFINITION. What the host can do to the machine outside a run (10_state.md R10): give it a program through the
Loader (20_memory.md R44), and call `run()` (40_execution_cycle.md R70). With them, the text form the excluded Loader
reads (30_encoding.md R66). -/

namespace Sys2Proof.Machine

/-- `run()`, with the default parameters (R70). -/
def run (s : State) : Result := hostRun opcMul exec s

/-- The loop of `load(prog)` (R44), from address `a` on. -/
def loadFrom : List Byte → Nat → State → Except FatalKind State
  | [], _, s => .ok s
  | b :: bs, a, s => do
    let r ← memWrite a (zext b) s
    loadFrom bs (a + 1) r.2

/-- `load(prog)` (R44): writes the program from address 0 on, into an `Idle` engine. A program of more than 256 bytes
is a refused launch (decision D15). The spec has one load alone, after construction. DESIGN CHOICE (log entry 20): a
further one, while the engine is still `Idle`, is the same writes again, over the memory as it then is: the bytes of an
earlier program past the end of the new one stay. -/
def load (prog : List Byte) (s : State) : Result :=
  match s.engine with
  | .idle =>
    match loadFrom prog 0 s with
    | .ok t => .next t
    | .error k => .refused (.launchRefused k)
  | .running | .halted | .faulted _ => .refused .loadNotIdle

/-- The Loader skips a line that is empty or begins with `#` (R66). -/
def skippedLine : List Char → Bool
  | [] => true
  | c :: _ => c == '#'

/-- The whitespace that delimits the tokens of a line. -/
def isSpace (c : Char) : Bool := c == ' ' || c == '\t'

/-- The first whitespace-delimited token of a line. -/
def firstToken (line : List Char) : List Char := (line.dropWhile isSpace).takeWhile (fun c => !isSpace c)

/-- The value of a token as a base-2 number, its leftmost character the most significant bit; none if a character is
no binary digit. -/
def binaryValue : List Char → Nat → Option Nat
  | [], n => some n
  | c :: cs, n =>
    if c = '0' then binaryValue cs (2 * n) else if c = '1' then binaryValue cs (2 * n + 1) else none

/-- The byte one line gives: the value of its first token, which is the string form of an 8-bit binary number. -/
def lineByte (line : List Char) : Option Byte :=
  if (firstToken line).length = 8 then (binaryValue (firstToken line) 0).map (BitVec.ofNat 8) else none

/-- The byte sequence the Loader hands over for a text, in file order (R66). None where a line has no 8-bit binary
token: what the Loader does then is not in the spec (91_not_in_source.md N20; log entry 10). -/
def loaderBytes : List (List Char) → Option (List Byte)
  | [] => some []
  | l :: ls =>
    if skippedLine l then loaderBytes ls
    else do
      let b ← lineByte l
      let bs ← loaderBytes ls
      pure (b :: bs)

end Sys2Proof.Machine
end

