-- ==== Sys2Proof/Machine/Parametric.lean ====
section
/-! DEFINITION. The machine at every value of the parameters of 00_scope.md R6: the same meanings and the same cycle as
`step`, with `REGW` and `OPC_MUL` as arguments (decisions D1 and D5: a model takes them as arguments). -/

namespace Sys2Proof.Machine

/-- The meaning of an instruction with register width `w`. -/
def execAt (w : Config.RegWidth) (i : Instr) (s : State) : Result :=
  match i with
  | .ldi r v => ldiAt w r v s
  | .prn r => execPrn r s
  | .mul a b => mulAt w a b s
  | .hlt => execHlt s
  | .unknown b => execUnknown b s

/-- The state after construction (R26) of a machine with register width `w`: the register values are `Value`s of that
width (R8), so at `REGW = n` the integers given are taken modulo `2^n` (DESIGN CHOICE, log entry 18). -/
def State.resetAt (w : Config.RegWidth) (init : Vector Value 8) : State := State.resetWith (init.map (regNorm w))

/-- One step with the parameters `p`. -/
def stepAt (p : Config.Params) (s : State) : Result := cycle p.opcMul (execAt p.regWidth) s

/-- `run()` with the parameters `p`. -/
def runAt (p : Config.Params) (s : State) : Result := hostRun p.opcMul (execAt p.regWidth) s

end Sys2Proof.Machine
end

