-- ==== Sys2Proof/Safety.lean ====
section
/-! DEFINITION. What counts as the end of a run, as a safe state, and as the invariant the statements are made with. -/

namespace Sys2Proof.Machine

/-- The run is over: the engine is `Halted` or `Faulted` (40_execution_cycle.md R83). -/
def State.runOver (s : State) : Bool :=
  match s.engine with
  | .halted => true
  | .faulted _ => true
  | .idle => false
  | .running => false

/-- The engine has not faulted. -/
def State.safe (s : State) : Bool :=
  match s.engine with
  | .faulted _ => false
  | .idle => true
  | .running => true
  | .halted => true

/-- A pass of the loop is due: the engine is `Running` and the running flag is true (the loop's condition in R70). -/
def State.ready (s : State) : Prop := s.engine = .running ∧ s.running = true

/-- The running flag is what R20 says it is in each state of the engine. -/
def State.flagAgrees (s : State) : Prop :=
  match s.engine with
  | .idle => s.running = false
  | .running => s.running = true
  | .halted => s.running = false
  | .faulted _ => s.running = true

/-- A fatal error that a program can cause in a run that started at address 0 (the last column of R125, and R126):
`OutOfBounds` of address 256, or `InvalidRegister` of a byte from 8 to 255. -/
def FatalKind.reachable : FatalKind → Prop
  | .outOfBounds a => a = 256
  | .invalidRegister i => 8 ≤ i ∧ i < 256
  | .unsupportedOperation _ => False
  | .divideByZero => False

/-- The invariant of the machine. -/
structure State.Inv (s : State) : Prop where
  /-- The memory is in its canonical form, with no cell past 255 (R12). -/
  memCanonical : s.mem.wf
  /-- The running flag and the engine agree (R20). -/
  flag : s.flagAgrees
  /-- The pc is at most 256 (R7). -/
  pcBound : s.pc ≤ 256
  /-- A `Halted` engine's pc addresses the HLT that halted it (R77). -/
  haltedAtHlt : s.engine = .halted → s.pc < 256 ∧ s.mem.get s.pc = opcHlt
  /-- A `Faulted` engine's reason is one a program can cause (R125). -/
  faultReachable : ∀ k, s.engine = .faulted k → k.reachable
  /-- An `Idle` engine has not run: pc 0 and no output (R19, R26). -/
  idleFresh : s.engine = .idle → s.pc = 0 ∧ s.out = [] ∧ s.diag = []
  /-- Every diagnostic is of a byte that is no opcode (R118). -/
  diagUnknown : ∀ b, .unknownOpcode b ∈ s.diag → isOpcode opcMul b = false

/-- Every register holds a value of the register width `w`. -/
def State.regsFit (w : Config.RegWidth) (s : State) : Prop := ∀ (i : Nat) (h : i < 8), regNorm w s.reg[i] = s.reg[i]

/-- No register holds a negative value, and none was printed. -/
def State.nonNegative (s : State) : Prop := (∀ (i : Nat) (h : i < 8), 0 ≤ s.reg[i]) ∧ ∀ v ∈ s.out, 0 ≤ v

/-- `n` steps of the machine, one after the other. -/
def stepN : Nat → State → Result
  | 0, s => .next s
  | n + 1, s =>
    match step s with
    | .next t => stepN n t
    | .fault f => .fault f
    | .refused r => .refused r

end Sys2Proof.Machine
end

