-- ==== Sys2Proof/Certificates/Slice0/Obligations.lean ====
section
/-! DEFINITION. The statements about the machine. Each docstring says which rule of the spec it formalises, or on which
section it rests and whose choice that is. `REGW` and `OPC_MUL` are quantified wherever the rule holds for every legal
value of them; the machine `step` is the one with their defaults (`DefaultParametersGiveTheMachine`). Two conventions of
the model run through the statements: a fatal error is a next state whose engine is `Faulted` (log entry 4, DEDUCED), and
a step of an `Idle` or `Halted` engine is the host's `run()` with the first pass of its loop (log entry 7, DESIGN
CHOICE). -/

open Sys2Proof Sys2Proof.Machine

/-! ## Construction and the Memory -/

/-- The state after construction (10_state.md section 4), whatever the register values are. Rests on the spec's own
decisions D3 (pc 0), D4 (registers unspecified: log entry 1), D10, D11 and D13. -/
def Obligations.ConstructionLeavesThisState : Prop :=
  State.reset = State.resetWith resetRegs ∧
  ∀ init : Vector Value 8, ∀ s, s = State.resetWith init →
    (∀ a, a < 256 → memRead a s = .ok 0) ∧ (∀ (i : Nat) (h : i < 8), readReg i s = .ok init[i]) ∧
    s.pc = 0 ∧ s.running = false ∧ s.engine = .idle ∧ s.out = [] ∧ s.diag = []

/-- The invariant holds after construction. -/
def Obligations.ConstructionMeetsTheInvariant : Prop :=
  State.reset.Inv ∧ ∀ init : Vector Value 8, (State.resetWith init).Inv

/-- R32, the contract of `MemRead`. -/
def Obligations.MemReadContract : Prop :=
  ∀ (a : Nat) (s : State),
    (a < 256 → memRead a s = .ok (s.mem.get a)) ∧ (256 ≤ a → memRead a s = .error (.outOfBounds a))

/-- 20_memory.md section 2: `MemWrite` stores and returns the low eight bits (the spec's own decision D8), a read of
that cell then returns them, every other cell and every other piece of state is as it was, and the memory stays in its
canonical form. -/
def Obligations.MemWriteThenRead : Prop :=
  ∀ (a : Nat) (v : Int) (s : State), s.mem.wf →
    (a < 256 → ∃ b t, memWrite a v s = .ok (b, t) ∧ (b.toNat : Int) = v % 256 ∧ memRead a t = .ok b ∧
      (∀ a', a' ≠ a → memRead a' t = memRead a' s) ∧ t = { s with mem := t.mem } ∧ t.mem.wf) ∧
    (256 ≤ a → memWrite a v s = .error (.outOfBounds a))

/-- 20_memory.md section 2 (R34): the four container operations fail exactly outside their range, each with one error.
And an instruction whose action fails leaves every container, and all else but the engine state, as it was: that entry
into `Faulted` is R131 with the spec's own decision D6, and that it is a next state is the model's (log entry 4). -/
def Obligations.ContainersFailOutsideTheirRange : Prop :=
  ∀ s : State,
    (∀ a k, (memRead a s = .error k ↔ 256 ≤ a ∧ k = .outOfBounds a) ∧
      ∀ v, (memWrite a v s = .error k ↔ 256 ≤ a ∧ k = .outOfBounds a)) ∧
    (∀ i k, (readReg i s = .error k ↔ 8 ≤ i ∧ k = .invalidRegister i) ∧
      ∀ w v, (writeReg w i v s = .error k ↔ 8 ≤ i ∧ k = .invalidRegister i)) ∧
    ∀ r k, r = .error k → attempt s r = .next { s with engine := .faulted k }

/-- The same canonical memory is the same data: two memories in the canonical form that read alike are equal. -/
def Obligations.CanonicalMemoriesThatReadAlikeAreEqual : Prop :=
  ∀ m n : Memory, m.wf → n.wf → (∀ a, a < 256 → m.get a = n.get a) → m = n

/-! ## The Register File and the alu -/

/-- 00_scope.md section 5 and 10_state.md section 2: a register write stores `norm(v)`, and changes no other register
and no other state. -/
def Obligations.RegisterWriteThenRead : Prop :=
  ∀ (w : Config.RegWidth) (i : Nat) (v : Value) (s : State),
    (i < 8 → ∃ t, writeReg w i v s = .ok t ∧ readReg i t = .ok (regNorm w v) ∧
      (∀ j, j ≠ i → readReg j t = readReg j s) ∧ t = { s with reg := t.reg }) ∧
    (8 ≤ i → writeReg w i v s = .error (.invalidRegister i) ∧ readReg i s = .error (.invalidRegister i))

/-- 00_scope.md section 5: `regNorm` is the identity with `REGW = inf` and the non-negative remainder modulo `2^n` with
`REGW = n` (the spec's own parameter, decision D1). -/
def Obligations.NormIsTheRemainder : Prop :=
  (∀ v, regNorm .inf v = v) ∧
  ∀ n v, 0 ≤ regNorm (.bits n) v ∧ regNorm (.bits n) v < 2 ^ n ∧ (2 ^ n : Int) ∣ v - regNorm (.bits n) v ∧
    regNorm (.bits n) (regNorm (.bits n) v) = regNorm (.bits n) v

/-- 43_mul_alu.md section 2: the alu's sum, difference and product are exact, and the engine's use of it stores the
result, normalised to the register width, in the first register, and nothing else. -/
def Obligations.AluSumDifferenceProduct : Prop :=
  (∀ va vb : Value, aluApply .add va vb = .ok (va + vb) ∧ aluApply .sub va vb = .ok (va - vb) ∧
    aluApply .mul va vb = .ok (va * vb)) ∧
  ∀ (w : Config.RegWidth) (op : AluOp) (a b : Byte) (s : State) (v : Value) (ha : a.toNat < 8) (hb : b.toNat < 8),
    aluApply op (s.reg[a.toNat]'ha) (s.reg[b.toNat]'hb) = .ok v →
    aluOnRegs w op a b s = .ok { s with reg := s.reg.set a.toNat (regNorm w v) ha }

/-- 43_mul_alu.md section 2, the spec's own decision D9: a zero divisor is a fatal error; an exact quotient is that
quotient; any other is the free `Config.aluDiv` of the operands (log entry 2; the statement holds whatever it is). -/
def Obligations.AluDivision : Prop :=
  ∀ va vb : Value,
    aluApply .div va 0 = .error .divideByZero ∧
    (vb ≠ 0 → vb ∣ va → ∃ q, aluApply .div va vb = .ok q ∧ q * vb = va) ∧
    (vb ≠ 0 → ¬ vb ∣ va → aluApply .div va vb = .ok (Config.aluDiv va vb))

/-- 43_mul_alu.md section 2 (decision D16): a selector outside the four raises `UnsupportedOperation` of it, whatever
the values, and the four never raise it. -/
def Obligations.AluRefusesOtherOperations : Prop :=
  ∀ (op op' : AluOp) (va vb : Value),
    aluApply op va vb = .error (.unsupportedOperation op') ↔ (∃ name, op = .other name) ∧ op' = op

/-! ## Decoding -/

/-- R73: the decoder names exactly one kind for every byte, by equality with the four opcode constants, and with it the
operand count and the alu operation. -/
def Obligations.DecoderNamesTheKind : Prop :=
  (∀ opc op : Byte, opcMulLegal opc = true →
    (decodeKind opc op = .ldi ↔ op = 0x82) ∧ (decodeKind opc op = .prn ↔ op = 0x47) ∧
    (decodeKind opc op = .mul ↔ op = opc) ∧ (decodeKind opc op = .hlt ↔ op = 0x01) ∧
    (decodeKind opc op = .unknown ↔ op ≠ 0x82 ∧ op ≠ 0x47 ∧ op ≠ opc ∧ op ≠ 0x01)) ∧
  Kind.ldi.operandCount = 2 ∧ Kind.prn.operandCount = 1 ∧ Kind.mul.operandCount = 2 ∧ Kind.hlt.operandCount = 0 ∧
  Kind.unknown.operandCount = 0 ∧ ∀ k, kindAluOp k = some .mul ↔ k = .mul

/-- Words written out from the encodings of 30_encoding.md section 3 (`OPC_MUL` at its default 0xA2, which the spec
marks as general knowledge: log entry 5) decode to the instructions they stand for, their operand bytes in the order
register, immediate and destination, source. -/
def Obligations.WrittenOutWordsDecode : Prop :=
  decodeTableWord 24 0b00001000_00000101_10000010 = some (.ldi 5 8) ∧
  decodeTableWord 16 0b00000111_01000111 = some (.prn 7) ∧
  decodeTableWord 24 0b00000001_00000110_10100010 = some (.mul 6 1) ∧
  decodeTableWord 8 0b00000001 = some .hlt ∧
  decodeTableWord 8 0b10000011 = some (.unknown 0x83) ∧ decodeTableWord 8 0 = some (.unknown 0)

/-- DECODE OF ENCODE: for every legal `OPC_MUL`, every expressible instruction at every operand value, and whatever
bytes follow it. -/
def Obligations.DecodeOfEncode : Prop :=
  ∀ (opc : Byte) (i : Instr) (rest : List Byte), opcMulLegal opc = true → i.wfAt opc = true →
    decodeAt opc (encodeAt opc i ++ rest) = .ok (i, rest)

/-- ENCODE OF DECODE: what decodes is expressible, and its encoding is the bytes it was read from. -/
def Obligations.EncodeOfDecode : Prop :=
  ∀ (opc : Byte) (bs : List Byte) (i : Instr) (rest : List Byte), opcMulLegal opc = true →
    decodeAt opc bs = .ok (i, rest) → i.wfAt opc = true ∧ bs = encodeAt opc i ++ rest

/-- The decoder refuses a list of bytes only where it ends before the instruction does: without an opcode byte, or
with fewer operand bytes than the kind has (the opcode byte alone tells the length, 30_encoding.md section 3). The two
refusals and their names are the model's own choice (log entry 15): the spec decodes from memory alone. -/
def Obligations.DecoderFailsOnlyWhereBytesEnd : Prop :=
  ∀ (opc : Byte) (bs : List Byte),
    (∀ e, decodeAt opc bs = .error e ↔ (bs = [] ∧ e = .noOpcode) ∨
      ∃ op tl, bs = op :: tl ∧ tl.length < (decodeKind opc op).operandCount ∧ e = .noOperand (tl.length + 1))

/-! ## One instruction -/

/-- LDI completes for every register 0 to 7 and every immediate byte (41_ldi.md): the register holds the byte's
unsigned value, the pc is 3 further, and nothing else has changed. -/
def Obligations.LdiCompletes : Prop :=
  ∀ (r v : Byte) (s : State) (h : r.toNat < 8),
    exec (.ldi r v) s = .next { s with reg := s.reg.set r.toNat (v.toNat : Int) h, pc := s.pc + 3 }

/-- PRN completes for every register 0 to 7 (42_prn.md): the register's whole value is appended to the output channel,
the pc is 2 further, and nothing else has changed. -/
def Obligations.PrnCompletes : Prop :=
  ∀ (r : Byte) (s : State) (h : r.toNat < 8),
    exec (.prn r) s = .next { s with out := s.out ++ [s.reg[r.toNat]'h], pc := s.pc + 2 }

/-- MUL at the default width completes for every pair of registers, the same one twice included (43_mul_alu.md section
1): the first holds the exact product of the two values before, the pc is 3 further, and nothing else has changed. The
product is exact since `exec` runs at `REGW = inf`, the default the model takes (log entry 6, the spec's own decision
D1); `WidthMattersForProductsOnly` says it for every width. -/
def Obligations.MulCompletes : Prop :=
  ∀ (a b : Byte) (s : State) (ha : a.toNat < 8) (hb : b.toNat < 8),
    exec (.mul a b) s = .next
      { s with reg := s.reg.set a.toNat (s.reg[a.toNat]'ha * s.reg[b.toNat]'hb) ha, pc := s.pc + 3 }

/-- HLT and the unknown-opcode action complete in every state (44_hlt_unknown.md): HLT clears the running flag; an
unknown byte is appended to the diagnostic channel and the pc is 1 further; nothing else changes. -/
def Obligations.HltAndUnknownComplete : Prop :=
  (∀ s : State, exec .hlt s = .next { s with running := false }) ∧
  ∀ (b : Byte) (s : State),
    exec (.unknown b) s = .next { s with diag := s.diag ++ [.unknownOpcode b], pc := s.pc + 1 }

/-- A register byte of 8 to 255 is not reduced modulo 8: the instruction takes `InvalidRegister` of that byte, MUL of
its first operand before its second, and nothing but the engine state changes (60_exceptions.md sections 1 and 2; the
spec's own decisions D6, D7 and D21; that the error is a next state is log entry 4). -/
def Obligations.RegisterByteAboveSevenFaults : Prop :=
  ∀ (a b : Byte) (s : State),
    (8 ≤ a.toNat →
      exec (.ldi a b) s = .next { s with engine := .faulted (.invalidRegister a.toNat) } ∧
      exec (.prn a) s = .next { s with engine := .faulted (.invalidRegister a.toNat) } ∧
      exec (.mul a b) s = .next { s with engine := .faulted (.invalidRegister a.toNat) }) ∧
    (a.toNat < 8 → 8 ≤ b.toNat →
      exec (.mul a b) s = .next { s with engine := .faulted (.invalidRegister b.toNat) })

/-- EVERY INSTRUCTION COMPLETES, at every width, in every state, and what it does: its whole effect where its register
bytes are in 0..7; with a register byte above 7 the state with the engine `Faulted` by `InvalidRegister` of that byte,
MUL's first before its second, and nothing else changed. That this error is a next state is the model's (log entry 4;
D6, D7 and D21 are the spec's own decisions). -/
def Obligations.EveryInstructionCompletes : Prop :=
  ∀ (w : Config.RegWidth) (s : State),
    (∀ r v : Byte,
      (∀ h : r.toNat < 8, execAt w (.ldi r v) s = .next
        { s with reg := s.reg.set r.toNat (regNorm w (v.toNat : Int)) h, pc := s.pc + 3 }) ∧
      (8 ≤ r.toNat → execAt w (.ldi r v) s = .next { s with engine := .faulted (.invalidRegister r.toNat) })) ∧
    (∀ r : Byte,
      (∀ h : r.toNat < 8, execAt w (.prn r) s = .next
        { s with out := s.out ++ [s.reg[r.toNat]'h], pc := s.pc + 2 }) ∧
      (8 ≤ r.toNat → execAt w (.prn r) s = .next { s with engine := .faulted (.invalidRegister r.toNat) })) ∧
    (∀ a b : Byte,
      (∀ (ha : a.toNat < 8) (hb : b.toNat < 8), execAt w (.mul a b) s = .next
        { s with reg := s.reg.set a.toNat (regNorm w (s.reg[a.toNat]'ha * s.reg[b.toNat]'hb)) ha, pc := s.pc + 3 }) ∧
      (8 ≤ a.toNat → execAt w (.mul a b) s = .next { s with engine := .faulted (.invalidRegister a.toNat) }) ∧
      (a.toNat < 8 → 8 ≤ b.toNat →
        execAt w (.mul a b) s = .next { s with engine := .faulted (.invalidRegister b.toNat) })) ∧
    execAt w .hlt s = .next { s with running := false } ∧
    (∀ b : Byte,
      execAt w (.unknown b) s = .next { s with diag := s.diag ++ [.unknownOpcode b], pc := s.pc + 1 }) ∧
    ∀ i : Instr, ∃ t, execAt w i s = .next t ∧ (i.regsLegal = true → t.engine = s.engine) ∧
      (i.regsLegal = false →
        ∃ n, t = { s with engine := .faulted (.invalidRegister n) } ∧ 8 ≤ n ∧ n < 256)

/-- R76: the update of the pc, on natural numbers and unchecked. -/
def Obligations.PcUpdate : Prop :=
  ∀ (w : Config.RegWidth) (i : Instr) (s t : State), execAt w i s = .next t →
    (i.regsLegal = true →
      (∀ r v, i = .ldi r v → t.pc = s.pc + 3) ∧ (∀ r, i = .prn r → t.pc = s.pc + 2) ∧
      (∀ a b, i = .mul a b → t.pc = s.pc + 3) ∧ (∀ b, i = .unknown b → t.pc = s.pc + 1) ∧
      (i = .hlt → t.pc = s.pc) ∧ (i ≠ .hlt → t.pc = s.pc + 1 + i.kind.operandCount)) ∧
    (∀ k, t.engine = .faulted k → s.engine ≠ .faulted k → t.pc = s.pc) ∧ ∀ k, (raise k s).pc = s.pc

/-- R15: which instruction touches which register. LDI writes its register, MUL its first, no instruction another; and
an instruction's whole effect is the same for any two register files that agree on the registers it reads: none for
LDI, HLT and an unknown opcode, `r` for PRN, `a` and `b` for MUL. -/
def Obligations.RegistersAnInstructionTouches : Prop :=
  (∀ (w : Config.RegWidth) (i : Instr) (s t : State), execAt w i s = .next t →
    ∀ (j : Nat) (hj : j < 8), (∀ r v, i = .ldi r v → j ≠ r.toNat) → (∀ a b, i = .mul a b → j ≠ a.toNat) →
      t.reg[j] = s.reg[j]) ∧
  ∀ (w : Config.RegWidth) (i : Instr) (s t : State) (other : Vector Value 8), execAt w i s = .next t →
    (∀ (j : Nat) (hj : j < 8), i = .prn (BitVec.ofNat 8 j) → other[j] = s.reg[j]) →
    (∀ (a b : Byte), i = .mul a b → ∀ (j : Nat) (hj : j < 8), j = a.toNat ∨ j = b.toNat → other[j] = s.reg[j]) →
    ∃ t', execAt w i { s with reg := other } = .next t' ∧ t' = { t with reg := t'.reg } ∧
      ∀ (j : Nat) (hj : j < 8), t'.reg[j] =
        if (∃ r v, i = .ldi r v ∧ j = r.toNat) ∨ (∃ a b, i = .mul a b ∧ j = a.toNat) then t.reg[j] else other[j]

/-- THE FRAME of every instruction, at every width: memory, byte by byte; the registers but the destination of LDI and
MUL; the output channel but for PRN; the diagnostic channel but for an unknown opcode; the running flag but for HLT;
and the engine state, which changes only by a fatal error, and then nothing else does (41_ldi.md, 42_prn.md,
43_mul_alu.md, 44_hlt_unknown.md: "State written"). -/
def Obligations.FrameOfEveryInstruction : Prop :=
  ∀ (w : Config.RegWidth) (i : Instr) (s t : State), execAt w i s = .next t →
    (∀ a, memRead a t = memRead a s) ∧ t.mem = s.mem ∧
    (∀ j, (∀ r v, i = .ldi r v → j ≠ r.toNat) → (∀ a b, i = .mul a b → j ≠ a.toNat) → readReg j t = readReg j s) ∧
    ((∀ r, i ≠ .prn r) → t.out = s.out) ∧ ((∀ b, i ≠ .unknown b) → t.diag = s.diag) ∧
    (i ≠ .hlt → t.running = s.running) ∧
    (t.engine = s.engine ∨ ∃ k, t = { s with engine := .faulted k })

/-- Property P2 (R96): LDI r v; PRN r appends exactly one line, the decimal string of v, at every legal width. -/
def Obligations.LdiThenPrnPrintsTheImmediate : Prop :=
  ∀ (w : Config.RegWidth) (r v : Byte) (s : State), regWidthLegal w = true → r.toNat < 8 →
    ∃ t u, execAt w (.ldi r v) s = .next t ∧ execAt w (.prn r) t = .next u ∧
      u.out = s.out ++ [(v.toNat : Int)] ∧ outLines u = outLines s ++ [dec (v.toNat : Int)]

/-- Property P3 (R109): LDI 0 a; LDI 1 b; MUL 0 1; PRN 0 appends one value at every width, `norm` of the product; it is
the product for all bytes a and b with `REGW = inf`, and with `REGW = n` exactly when that is below `2^n`. -/
def Obligations.LdiLdiMulPrnPrintsTheProduct : Prop :=
  ∀ (w : Config.RegWidth) (a b : Byte) (s : State), regWidthLegal w = true →
    ∃ s1 s2 s3 s4, execAt w (.ldi 0 a) s = .next s1 ∧ execAt w (.ldi 1 b) s1 = .next s2 ∧
      execAt w (.mul 0 1) s2 = .next s3 ∧ execAt w (.prn 0) s3 = .next s4 ∧
      s4.out = s.out ++ [regNorm w (a.toNat * b.toNat : Int)] ∧
      (w = .inf → s4.out = s.out ++ [(a.toNat * b.toNat : Int)]) ∧
      ∀ n, w = .bits n → (s4.out = s.out ++ [(a.toNat * b.toNat : Int)] ↔ a.toNat * b.toNat < 2 ^ n)

/-- 00_scope.md section 5, `dec` (the form of the string is general knowledge, 93_implementation_defined.md G5): the
digits of a value that is not negative are decimal digits, read back as the value, and begin with 0 only for 0 itself;
a negative value has a minus sign before the digits of its opposite. -/
def Obligations.DecIsTheDecimalString : Prop :=
  (∀ n : Nat, (∀ c ∈ decChars n, '0' ≤ c ∧ c ≤ '9') ∧
    (decChars n).foldl (fun acc c => 10 * acc + (c.toNat - 48)) 0 = n ∧
    (n = 0 → decChars n = ['0']) ∧ (n ≠ 0 → (decChars n).head? ≠ some '0' ∧ decChars n ≠ [])) ∧
  (∀ v : Value, v < 0 → decChars v = '-' :: decChars (-v)) ∧ ∀ v, dec v = String.ofList (decChars v)

/-- The register width touches products alone: LDI stores the same value at every legal width (41_ldi.md, corner
cases), and so do PRN, HLT and an unknown opcode; so does every instruction with a register byte of 8 to 255, which
is an error at every width; MUL of two registers stores the normalised product. -/
def Obligations.WidthMattersForProductsOnly : Prop :=
  ∀ (w : Config.RegWidth) (i : Instr) (s : State), regWidthLegal w = true →
    ((∀ a b, i ≠ .mul a b) → execAt w i s = exec i s) ∧ (i.regsLegal = false → execAt w i s = exec i s) ∧
    ∀ (a b : Byte) (ha : a.toNat < 8) (hb : b.toNat < 8), i = .mul a b → execAt w i s = .next
      { s with reg := s.reg.set a.toNat (regNorm w (s.reg[a.toNat]'ha * s.reg[b.toNat]'hb)) ha, pc := s.pc + 3 }

/-! ## One step -/

/-- FETCH IS DECODE OF MEMORY: what fetch_unit and the decoder read at the pc is what the decoder reads from the bytes
of memory from there to the end; and where those bytes end too early, the error is of address 256, or of the pc where
that lies further (40_execution_cycle.md section 2; raising is the spec's own decision D6). -/
def Obligations.FetchIsDecodeOfMemory : Prop :=
  ∀ (opc : Byte) (s : State),
    (∀ i rest, decodeAt opc (s.mem.bytesFrom s.pc) = .ok (i, rest) → fetchInstr opc s = .ok i) ∧
    ∀ e, decodeAt opc (s.mem.bytesFrom s.pc) = .error e → fetchInstr opc s = .error (.outOfBounds (max s.pc 256))

/-- A STEP RUNS THE DECODED INSTRUCTION (40_execution_cycle.md section 1): where the bytes at the pc decode to `i`, a
step is `exec i`, followed by the loop test: a running engine whose flag is false becomes `Halted`. An engine that is
`Idle` or `Halted` first enters the run (flag true, engine `Running`): that this happens in the same step is the
model's choice (log entry 7). -/
def Obligations.StepRunsTheDecodedInstruction : Prop :=
  ∀ (s b : State) (i : Instr) (rest : List Byte),
    ((s.engine = .running ∧ s.running = true ∧ b = s) ∨
      ((s.engine = .idle ∨ s.engine = .halted) ∧ b = { s with running := true, engine := .running })) →
    decode (s.mem.bytesFrom s.pc) = .ok (i, rest) →
    step s = match exec i b with
      | .next t => .next (if t.engine = .running ∧ t.running = false then { t with engine := .halted } else t)
      | .fault f => .fault f
      | .refused r => .refused r

/-- A step whose fetch runs past the end of the Memory takes `OutOfBounds` (60_exceptions.md sections 1 and 2; the
spec's own decision D6): the engine is `Faulted`, and nothing else has changed but what entering the run changes. That
the fault is a next state is log entry 4; that an `Idle` or `Halted` engine enters the run and takes the faulting fetch
in one step is the model's choice (log entry 7). -/
def Obligations.StepTakesTheFetchError : Prop :=
  ∀ (s b : State) (e : DecodeError),
    ((s.engine = .running ∧ s.running = true ∧ b = s) ∨
      ((s.engine = .idle ∨ s.engine = .halted) ∧ b = { s with running := true, engine := .running })) →
    decode (s.mem.bytesFrom s.pc) = .error e →
    step s = .next { b with engine := .faulted (.outOfBounds (max s.pc 256)) }

/-- A `Faulted` engine takes no step (60_exceptions.md section 2, decision D6): that asking for one answers the fault
`engineFaulted` is the model's (log entry 4). A running engine whose flag is false takes the loop's exit and no
instruction: that this exit alone is a step is the model's choice (log entry 7), for a state no run reaches (there the
flag and the engine do not agree, `State.flagAgrees`). -/
def Obligations.StepsWithoutAPass : Prop :=
  ∀ s : State,
    (∀ k, s.engine = .faulted k → step s = .fault (.engineFaulted k)) ∧
    (s.engine = .running → s.running = false → step s = .next { s with engine := .halted })

/-- Every step of an engine that has not faulted answers a next state: no step of this machine is refused. That `Idle`
and `Halted` engines have a step is the model's choice (log entry 7; the spec's own step has a `Running` engine, R71),
and that a fatal error is a next state is the model's too (log entry 4). -/
def Obligations.StepAnswersANextState : Prop :=
  ∀ (p : Config.Params) (s : State), (∀ k, s.engine ≠ .faulted k) → ∃ t, stepAt p s = .next t

/-- Property P1 (R91): executing LDI r v sets register r to v, leaves all other registers, and the instruction at
`pc + 3` is the next one. -/
def Obligations.LdiStepSetsItsRegister : Prop :=
  ∀ (p : Config.Params) (s : State) (r v : Byte), regWidthLegal p.regWidth = true → s.ready → s.pc ≤ 253 →
    memRead s.pc s = .ok 0x82 → memRead (s.pc + 1) s = .ok r → memRead (s.pc + 2) s = .ok v → r.toNat < 8 →
    ∃ t, stepAt p s = .next t ∧ readReg r.toNat t = .ok (v.toNat : Int) ∧
      (∀ j, j ≠ r.toNat → readReg j t = readReg j s) ∧ t.pc = s.pc + 3 ∧ t.ready ∧
      t = { s with reg := t.reg, pc := t.pc }

/-- R115: a step that fetches HLT clears the running flag and halts the engine; the pc, the registers, the memory and
both channels are unchanged. At address 255 too, and for every legal `OPC_MUL`. -/
def Obligations.HltStepHalts : Prop :=
  ∀ (p : Config.Params) (s : State), opcMulLegal p.opcMul = true → s.ready → memRead s.pc s = .ok 0x01 →
    stepAt p s = .next { s with running := false, engine := .halted }

/-- R118: a step that fetches a byte that is none of the four opcode constants appends one diagnostic record of it and
skips exactly one byte; nothing else changes and the run goes on. At address 255 too. -/
def Obligations.UnknownStepSkipsOneByte : Prop :=
  ∀ (p : Config.Params) (s : State) (b : Byte), s.ready → memRead s.pc s = .ok b →
    b ≠ 0x82 → b ≠ 0x47 → b ≠ p.opcMul → b ≠ 0x01 →
    stepAt p s = .next { s with diag := s.diag ++ [.unknownOpcode b], pc := s.pc + 1 }

/-- Property P5 (R119): an unknown byte followed by HLT ends the run normally, one address further. -/
def Obligations.UnknownThenHltHalts : Prop :=
  ∀ (p : Config.Params) (s : State) (b : Byte), opcMulLegal p.opcMul = true → s.ready → memRead s.pc s = .ok b →
    b ≠ 0x82 → b ≠ 0x47 → b ≠ p.opcMul → b ≠ 0x01 → memRead (s.pc + 1) s = .ok 0x01 →
    ∃ t u, stepAt p s = .next t ∧ stepAt p t = .next u ∧ u.engine = .halted ∧ u.running = false ∧
      u.pc = s.pc + 1 ∧ u.diag = s.diag ++ [.unknownOpcode b] ∧ u.out = s.out ∧ u.reg = s.reg ∧ u.mem = s.mem

/-- 60_exceptions.md section 2, the order in which several errors of one instruction are reported (the spec's own
decision D7): the opcode fetch, the operand fetches in ascending order, the first register byte, the second. Each is
a next state (log entry 4). -/
def Obligations.FirstErrorInOrderIsReported : Prop :=
  ∀ (p : Config.Params) (s : State), opcMulLegal p.opcMul = true → s.ready →
    (256 ≤ s.pc → stepAt p s = .next { s with engine := .faulted (.outOfBounds s.pc) }) ∧
    ∀ op, memRead s.pc s = .ok op → op = 0x82 ∨ op = 0x47 ∨ op = p.opcMul →
      (s.pc = 255 → stepAt p s = .next { s with engine := .faulted (.outOfBounds (s.pc + 1)) }) ∧
      (s.pc = 254 → op ≠ 0x47 → stepAt p s = .next { s with engine := .faulted (.outOfBounds (s.pc + 2)) }) ∧
      ∀ a b, memRead (s.pc + 1) s = .ok a → (op ≠ 0x47 → memRead (s.pc + 2) s = .ok b) →
        (8 ≤ a.toNat → stepAt p s = .next { s with engine := .faulted (.invalidRegister a.toNat) }) ∧
        (a.toNat < 8 → op = p.opcMul → 8 ≤ b.toNat →
          stepAt p s = .next { s with engine := .faulted (.invalidRegister b.toNat) })

/-- 60_exceptions.md section 2: faults are precise. A step of a run that ends in `Faulted` has changed nothing but the
engine state, and the reason is the error of its own fetch or of a register byte of its own instruction. -/
def Obligations.FaultsArePrecise : Prop :=
  ∀ (p : Config.Params) (s t : State) (k : FatalKind), s.ready → stepAt p s = .next t → t.engine = .faulted k →
    t = { s with engine := .faulted k } ∧
    (fetchInstr p.opcMul s = .error k ∨
      ∃ i, fetchInstr p.opcMul s = .ok i ∧ i.regsLegal = false ∧ ∃ n, k = .invalidRegister n ∧ 8 ≤ n ∧ n < 256)

/-- R18: the running flag is set by `run()`, cleared by HLT, and written by nothing else, a fatal error included. -/
def Obligations.OnlyRunAndHltWriteTheFlag : Prop :=
  (∀ (w : Config.RegWidth) (i : Instr) (s t : State), execAt w i s = .next t →
    t.running = if i = .hlt then false else s.running) ∧
  (∀ k s, (raise k s).running = s.running) ∧ (∀ s, (enterRun s).running = true) ∧
  (∀ p s t, stepAt p s = .next t → t.running = false →
    (s.engine = .running ∧ s.running = false) ∨ fetchInstr p.opcMul s = .ok .hlt)

/-- The transitions of the engine state (10_state.md section 2; `Faulted` is the spec's own, decision D6): no step
leads to `Idle`; `Halted` is reached only with the flag false and `Faulted` only with it true; and an engine that goes
on `Running` has its flag true. The steps of `Idle` and `Halted` engines, and the bare loop exit, are the model's choice
(log entry 7). -/
def Obligations.EngineTransitions : Prop :=
  ∀ (p : Config.Params) (s t : State), stepAt p s = .next t →
    t.engine ≠ .idle ∧ (t.engine = .halted → t.running = false) ∧ (t.engine = .running → t.running = true) ∧
    ((∃ k, t.engine = .faulted k) → t.running = true)

/-- What a step never does (10_state.md sections 2 and 3, 40_execution_cycle.md section 4): it writes no memory, moves
the pc backwards or by more than 3, or takes anything back from a channel. It appends at most one value, for a PRN it
fetched, and at most one diagnostic, for an unknown byte it fetched. -/
def Obligations.StepsOnlyGoForward : Prop :=
  ∀ (p : Config.Params) (s t : State), stepAt p s = .next t →
    t.mem = s.mem ∧ s.pc ≤ t.pc ∧ t.pc ≤ s.pc + 3 ∧
    (t.out = s.out ∨ ∃ r v, fetchInstr p.opcMul s = .ok (.prn r) ∧ readReg r.toNat s = .ok v ∧ t.out = s.out ++ [v]) ∧
    (t.diag = s.diag ∨
      ∃ b, fetchInstr p.opcMul s = .ok (.unknown b) ∧ t.diag = s.diag ++ [.unknownOpcode b])

/-! ## Invariants -/

/-- THE INVARIANT IS KEPT by every step, from every state that meets it: the canonical memory, the agreement of flag and
engine, the pc at most 256, a halted pc at a HLT, a fatal error a program can cause, a fresh `Idle` engine, and
diagnostics of unknown bytes only. -/
def Obligations.StepKeepsTheInvariant : Prop :=
  ∀ s t : State, s.Inv → step s = .next t → t.Inv

/-- No step makes a register negative, or prints a negative value, where none was (42_prn.md, corner cases). -/
def Obligations.StepKeepsValuesNonNegative : Prop :=
  ∀ (p : Config.Params) (s t : State), s.nonNegative → stepAt p s = .next t → t.nonNegative

/-- With a legal register width, every register of a state that fits the width fits it after a step (10_state.md
section 2; the finite width is the spec's own parameter, decision D1). -/
def Obligations.StepKeepsRegistersInWidth : Prop :=
  ∀ (p : Config.Params) (s t : State), s.regsFit p.regWidth → stepAt p s = .next t → t.regsFit p.regWidth

/-! ## The whole run and the host's requests -/

/-- EVERY RUN ENDS (40_execution_cycle.md section 4): `run()` of an `Idle` or `Halted` engine, in any state and for any
parameters, returns with the engine `Halted` or `Faulted`. That `runAt` makes at most 257 passes is log entry 9, taken
from the bound of R79: this says that the bound cuts no run short. -/
def Obligations.EveryRunEnds : Prop :=
  ∀ (p : Config.Params) (s : State), s.engine = .idle ∨ s.engine = .halted →
    ∃ t, runAt p s = .next t ∧ t.runOver = true

/-- A RUN IS ITS STEPS: what `run()` returns is reached by at most 257 steps of the machine, all but the last of which
leave the engine `Running`. The count rests on the model's choices: the first step of an `Idle` or `Halted` engine
enters the run and makes its first pass (log entry 7), and `run()` makes at most 257 passes (log entry 9). -/
def Obligations.RunIsItsSteps : Prop :=
  ∀ s t : State, s.engine = .idle ∨ s.engine = .halted → run s = .next t →
    ∃ n, 0 < n ∧ n ≤ 257 ∧ stepN n s = .next t ∧
      ∀ m, 0 < m → m < n → ∃ u, stepN m s = .next u ∧ u.ready

/-- Property P4 (R116): where control reaches a HLT fetched as an opcode before any fatal error, `run()` returns with
the engine `Halted` and the running flag false. The steps are the model's (log entries 7 and 9). -/
def Obligations.ReachingHltEndsTheRun : Prop :=
  ∀ (n : Nat) (s u : State), s.engine = .idle ∨ s.engine = .halted → stepN n s = .next u → u.safe = true →
    memRead u.pc u = .ok 0x01 →
    ∃ t, run s = .next t ∧ t.engine = .halted ∧ t.running = false ∧ t.pc = u.pc

/-- 40_execution_cycle.md section 4: running again after a halt changes nothing: the same HLT is fetched and halts the
engine again. That is the half about `run()`; that a step of a `Halted` engine is `run()` with its first pass, and so
changes nothing either, is the model's choice (log entry 7). -/
def Obligations.RunAgainAfterHalt : Prop :=
  ∀ s : State, s.Inv → s.engine = .halted → run s = .next s ∧ step s = .next s

/-- `run()` is refused on a `Faulted` engine (40_execution_cycle.md section 1, decision D14; the name of the refusal, and
that `step` is stuck instead, is log entry 4). On a `Running` engine the spec says that the call cannot happen: that the
model refuses it there too is its own choice (log entry 19). -/
def Obligations.RunIsRefusedElsewhere : Prop :=
  ∀ s : State, (s.engine = .running → run s = .refused .runWhileRunning) ∧
    ∀ k, s.engine = .faulted k → run s = .refused (.runAfterFault k)

/-- 20_memory.md section 6: loading writes the i-th byte of the program at address i and changes no other cell and no
other state; an engine that is not `Idle` takes no program, and a program of more than 256 bytes is a refused launch
(the spec's own decision D15; the form of the two refusals is log entry 11). The spec loads once, after construction:
that this holds of any `Idle` engine, so also of a second load over an earlier program, is the model's own choice (log
entry 20). -/
def Obligations.LoadWritesFromAddressZero : Prop :=
  ∀ (prog : List Byte) (s : State), s.mem.wf →
    (s.engine = .idle → prog.length ≤ 256 → ∃ t, load prog s = .next t ∧ t = { s with mem := t.mem } ∧ t.mem.wf ∧
      (∀ (i : Nat) (h : i < prog.length), memRead i t = .ok prog[i]) ∧
      ∀ a, prog.length ≤ a → memRead a t = memRead a s) ∧
    (s.engine = .idle → 256 < prog.length → load prog s = .refused (.launchRefused (.outOfBounds 256))) ∧
    (s.engine ≠ .idle → load prog s = .refused .loadNotIdle)

/-- Property P6 (R45): comment lines and blank lines change nothing: a text loads as the same text without them. -/
def Obligations.LoaderIgnoresSkippedLines : Prop :=
  ∀ ls ls' : List (List Char), ls.filter (fun l => !skippedLine l) = ls'.filter (fun l => !skippedLine l) →
    loaderBytes ls = loaderBytes ls' ∧
    ∀ bs, loaderBytes ls = some bs → bs.length = (ls.filter (fun l => !skippedLine l)).length

/-! ## The model's own interface -/

/-- The machine `step` is the parametric one at the parameters' defaults (`OPC_MUL` 0xA2, log entry 5; `REGW` `inf`,
log entry 6). -/
def Obligations.DefaultParametersGiveTheMachine : Prop :=
  defaultParams = { regWidth := .inf, opcMul := 0xA2 } ∧
  ∀ s, step s = stepAt defaultParams s ∧ run s = runAt defaultParams s ∧ ∀ i, exec i s = execAt .inf i s

/-- The model's own `withFetchWord` (log entry 8): the very next step runs the instruction the word decodes to. -/
def Obligations.PlacedWordRunsNext : Prop :=
  ∀ (s : State) (nbits w : Nat) (i : Instr), s.mem.wf → decodeTableWord nbits w = some i →
    step (s.withFetchWord nbits w) = closeLoop (exec i (beginPass (s.withFetchWord nbits w)))

/-- The model's own construction at a register width (log entry 18): every register then holds a `Value` of that width,
the constructed state meets the invariant, register values that are of that width already are kept, so that all of them
occur, and the default width keeps every value. -/
def Obligations.ConstructionFitsTheRegisterWidth : Prop :=
  ∀ (w : Config.RegWidth) (init : Vector Value 8),
    (State.resetAt w init).regsFit w ∧ (State.resetAt w init).Inv ∧
    ((∀ (i : Nat) (h : i < 8), regNorm w init[i] = init[i]) → State.resetAt w init = State.resetWith init) ∧
    State.resetAt .inf resetRegs = State.reset
end

