-- ==== Sys2Proof/Laws/Decode.lean ====
section
/-! SUPPORT. What the decoder reads, case by case of the opcode byte. -/

namespace Sys2Proof

/-- Everything a reader of bytes can give the decoder: the first read that fails, or the instruction of the kind the
opcode byte names, with the operand bytes that kind has. -/
theorem readInstr_cases {ε : Type} (opc : Byte) (rd : Nat → Except ε Byte) :
    (∃ e, rd 0 = .error e ∧ readInstr opc rd = .error e) ∨
    ∃ op, rd 0 = .ok op ∧
      ((decodeKind opc op = .hlt ∧ readInstr opc rd = .ok .hlt) ∨
       (decodeKind opc op = .unknown ∧ readInstr opc rd = .ok (.unknown op)) ∨
       (∃ e, (decodeKind opc op).operandCount ≠ 0 ∧ rd 1 = .error e ∧ readInstr opc rd = .error e) ∨
       (∃ x, rd 1 = .ok x ∧
         ((decodeKind opc op = .prn ∧ readInstr opc rd = .ok (.prn x)) ∨
          (∃ e, (decodeKind opc op).operandCount = 2 ∧ rd 2 = .error e ∧ readInstr opc rd = .error e) ∨
          (∃ y, rd 2 = .ok y ∧
            ((decodeKind opc op = .ldi ∧ readInstr opc rd = .ok (.ldi x y)) ∨
             (decodeKind opc op = .mul ∧ readInstr opc rd = .ok (.mul x y))))))) := by
  cases h0 : rd 0 with
  | error e => exact .inl ⟨e, rfl, by simp [readInstr, h0, bind, Except.bind]⟩
  | ok op =>
    refine .inr ⟨op, rfl, ?_⟩
    cases hk : decodeKind opc op <;> cases h1 : rd 1 <;> cases h2 : rd 2 <;>
      simp [readInstr, h0, hk, h1, h2, bind, Except.bind, pure, Except.pure, Kind.operandCount]

@[simp] theorem byteOf_nil (k : Nat) : byteOf [] k = .error (if k = 0 then .noOpcode else .noOperand k) := by
  simp [byteOf]

@[simp] theorem byteOf_cons_zero (b : Byte) (bs : List Byte) : byteOf (b :: bs) 0 = .ok b := by simp [byteOf]

@[simp] theorem byteOf_cons_succ (b : Byte) (bs : List Byte) (k : Nat) :
    byteOf (b :: bs) (k + 1) = match bs[k]? with | some x => .ok x | none => .error (.noOperand (k + 1)) := by
  cases h : bs[k]? <;> simp [byteOf, h]

theorem decodeKind_ldi (opc : Byte) : decodeKind opc Machine.opcLdi = .ldi := by simp [decodeKind]

theorem decodeKind_prn (opc : Byte) : decodeKind opc Machine.opcPrn = .prn := by
  simp [decodeKind, Machine.opcPrn, Machine.opcLdi]

theorem decodeKind_mul {opc : Byte} (h : Machine.opcMulLegal opc = true) : decodeKind opc opc = .mul := by
  simp only [Machine.opcMulLegal, Bool.and_eq_true, bne_iff_ne, ne_eq] at h
  simp [decodeKind, h.1.1, h.1.2]

theorem decodeKind_hlt {opc : Byte} (h : Machine.opcMulLegal opc = true) : decodeKind opc Machine.opcHlt = .hlt := by
  simp only [Machine.opcMulLegal, Bool.and_eq_true, bne_iff_ne, ne_eq] at h
  have := Ne.symm h.2
  simp_all [decodeKind, Machine.opcHlt, Machine.opcPrn, Machine.opcLdi]

theorem decodeKind_unknown {opc b : Byte} (h : Machine.isOpcode opc b = false) : decodeKind opc b = .unknown := by
  simp only [Machine.isOpcode, Bool.or_eq_false_iff, beq_eq_false_iff_ne, ne_eq] at h
  simp [decodeKind, h.1.1.1, h.1.1.2, h.1.2, h.2]

/-- The default `OPC_MUL` is a legal one. -/
@[simp] theorem opcMul_legal : Machine.opcMulLegal Machine.opcMul = true := by decide

end Sys2Proof
end

