-- ==== Sys2Proof/Laws/State.lean ====
section
/-! SUPPORT. One lemma per field of State per update of it, so that no later proof unfolds a record update. -/

namespace Sys2Proof.Machine

@[simp] theorem emit_mem (v : Value) (s : State) : (emit v s).mem = s.mem := rfl
@[simp] theorem emit_reg (v : Value) (s : State) : (emit v s).reg = s.reg := rfl
@[simp] theorem emit_pc (v : Value) (s : State) : (emit v s).pc = s.pc := rfl
@[simp] theorem emit_running (v : Value) (s : State) : (emit v s).running = s.running := rfl
@[simp] theorem emit_engine (v : Value) (s : State) : (emit v s).engine = s.engine := rfl
@[simp] theorem emit_out (v : Value) (s : State) : (emit v s).out = s.out ++ [v] := rfl
@[simp] theorem emit_diag (v : Value) (s : State) : (emit v s).diag = s.diag := rfl

@[simp] theorem report_mem (b : Byte) (s : State) : (report b s).mem = s.mem := rfl
@[simp] theorem report_reg (b : Byte) (s : State) : (report b s).reg = s.reg := rfl
@[simp] theorem report_pc (b : Byte) (s : State) : (report b s).pc = s.pc := rfl
@[simp] theorem report_running (b : Byte) (s : State) : (report b s).running = s.running := rfl
@[simp] theorem report_engine (b : Byte) (s : State) : (report b s).engine = s.engine := rfl
@[simp] theorem report_out (b : Byte) (s : State) : (report b s).out = s.out := rfl
@[simp] theorem report_diag (b : Byte) (s : State) : (report b s).diag = s.diag ++ [.unknownOpcode b] := rfl

@[simp] theorem advance_mem (n : Nat) (s : State) : (advance n s).mem = s.mem := rfl
@[simp] theorem advance_reg (n : Nat) (s : State) : (advance n s).reg = s.reg := rfl
@[simp] theorem advance_pc (n : Nat) (s : State) : (advance n s).pc = s.pc + n := rfl
@[simp] theorem advance_running (n : Nat) (s : State) : (advance n s).running = s.running := rfl
@[simp] theorem advance_engine (n : Nat) (s : State) : (advance n s).engine = s.engine := rfl
@[simp] theorem advance_out (n : Nat) (s : State) : (advance n s).out = s.out := rfl
@[simp] theorem advance_diag (n : Nat) (s : State) : (advance n s).diag = s.diag := rfl

@[simp] theorem raise_mem (k : FatalKind) (s : State) : (raise k s).mem = s.mem := rfl
@[simp] theorem raise_reg (k : FatalKind) (s : State) : (raise k s).reg = s.reg := rfl
@[simp] theorem raise_pc (k : FatalKind) (s : State) : (raise k s).pc = s.pc := rfl
@[simp] theorem raise_running (k : FatalKind) (s : State) : (raise k s).running = s.running := rfl
@[simp] theorem raise_engine (k : FatalKind) (s : State) : (raise k s).engine = .faulted k := rfl
@[simp] theorem raise_out (k : FatalKind) (s : State) : (raise k s).out = s.out := rfl
@[simp] theorem raise_diag (k : FatalKind) (s : State) : (raise k s).diag = s.diag := rfl

@[simp] theorem setRunning_mem (b : Bool) (s : State) : (setRunning b s).mem = s.mem := rfl
@[simp] theorem setRunning_reg (b : Bool) (s : State) : (setRunning b s).reg = s.reg := rfl
@[simp] theorem setRunning_pc (b : Bool) (s : State) : (setRunning b s).pc = s.pc := rfl
@[simp] theorem setRunning_running (b : Bool) (s : State) : (setRunning b s).running = b := rfl
@[simp] theorem setRunning_engine (b : Bool) (s : State) : (setRunning b s).engine = s.engine := rfl
@[simp] theorem setRunning_out (b : Bool) (s : State) : (setRunning b s).out = s.out := rfl
@[simp] theorem setRunning_diag (b : Bool) (s : State) : (setRunning b s).diag = s.diag := rfl

@[simp] theorem enterRun_mem (s : State) : (enterRun s).mem = s.mem := rfl
@[simp] theorem enterRun_reg (s : State) : (enterRun s).reg = s.reg := rfl
@[simp] theorem enterRun_pc (s : State) : (enterRun s).pc = s.pc := rfl
@[simp] theorem enterRun_running (s : State) : (enterRun s).running = true := rfl
@[simp] theorem enterRun_engine (s : State) : (enterRun s).engine = .running := rfl
@[simp] theorem enterRun_out (s : State) : (enterRun s).out = s.out := rfl
@[simp] theorem enterRun_diag (s : State) : (enterRun s).diag = s.diag := rfl

end Sys2Proof.Machine
end

