-- ==== Sys2Proof/Laws/Cycle.lean ====
section
/-! SUPPORT. What the parts of the execution cycle answer. -/

namespace Sys2Proof.Machine

@[simp] theorem fetchInstr_enterRun (opc : Byte) (s : State) : fetchInstr opc (enterRun s) = fetchInstr opc s := rfl

theorem loopPass_of_fetch {opc : Byte} {ex : Instr → State → Result} {s : State} {i : Instr}
    (h : fetchInstr opc s = .ok i) : loopPass opc ex s = ex i s := by simp [loopPass, h]

theorem loopPass_of_error {opc : Byte} {ex : Instr → State → Result} {s : State} {k : FatalKind}
    (h : fetchInstr opc s = .error k) : loopPass opc ex s = .next (raise k s) := by simp [loopPass, h]

theorem beginPass_running {s : State} (h : s.engine = .running) : beginPass s = s := by simp [beginPass, h]

theorem beginPass_idle {s : State} (h : s.engine = .idle) : beginPass s = enterRun s := by simp [beginPass, h]

theorem beginPass_halted {s : State} (h : s.engine = .halted) : beginPass s = enterRun s := by simp [beginPass, h]

/-- The loop test leaves a state alone unless it is that of a running engine whose flag is false. -/
theorem loopExit_of_running {s : State} (h : s.running = true) : loopExit s = s := by simp [loopExit, h]

theorem loopExit_of_stopped {s : State} (he : s.engine = .running) (h : s.running = false) :
    loopExit s = { s with engine := .halted } := by simp [loopExit, he, h]

@[simp] theorem loopExit_mem (s : State) : (loopExit s).mem = s.mem := by unfold loopExit; split <;> rfl
@[simp] theorem loopExit_reg (s : State) : (loopExit s).reg = s.reg := by unfold loopExit; split <;> rfl
@[simp] theorem loopExit_pc (s : State) : (loopExit s).pc = s.pc := by unfold loopExit; split <;> rfl
@[simp] theorem loopExit_running (s : State) : (loopExit s).running = s.running := by unfold loopExit; split <;> rfl
@[simp] theorem loopExit_out (s : State) : (loopExit s).out = s.out := by unfold loopExit; split <;> rfl
@[simp] theorem loopExit_diag (s : State) : (loopExit s).diag = s.diag := by unfold loopExit; split <;> rfl

@[simp] theorem closeLoop_next (t : State) : closeLoop (.next t) = .next (loopExit t) := rfl

theorem cycle_of_faulted (opc : Byte) (ex : Instr → State → Result) {s : State} {k : FatalKind}
    (h : s.engine = .faulted k) : cycle opc ex s = .fault (.engineFaulted k) := by simp [cycle, h]

/-- A step of an engine that is not running: the run is entered, then one pass and the loop test. -/
theorem cycle_of_not_running (opc : Byte) (ex : Instr → State → Result) {s : State}
    (h : s.engine = .idle ∨ s.engine = .halted) : cycle opc ex s = closeLoop (loopPass opc ex (enterRun s)) := by
  rcases h with h | h <;> simp [cycle, h, beginPass]

/-- A step of a running engine whose flag is true: one pass and the loop test. -/
theorem cycle_of_running (opc : Byte) (ex : Instr → State → Result) {s : State} (he : s.engine = .running)
    (h : s.running = true) : cycle opc ex s = closeLoop (loopPass opc ex s) := by
  simp [cycle, he, beginPass, h]

/-- A step of a running engine whose flag is false: the loop test alone. -/
theorem cycle_of_stopped (opc : Byte) (ex : Instr → State → Result) {s : State} (he : s.engine = .running)
    (h : s.running = false) : cycle opc ex s = .next { s with engine := .halted } := by
  simp [cycle, he, beginPass, h, loopExit_of_stopped he h]

end Sys2Proof.Machine
end

