-- ==== Sys2Proof/Laws/Memory.lean ====
section
/-! SUPPORT. The laws of the Memory: a read after a write, and that every memory operation keeps the canonical form. -/

namespace Sys2Proof.Machine

@[simp] theorem Memory.get_nil (a : Nat) : Memory.get [] a = unlisted := rfl

theorem Memory.get_of_absent (m : Memory) (a : Nat) (h : ∀ c ∈ m, c.1 ≠ a) : m.get a = unlisted := by
  induction m with
  | nil => rfl
  | cons c m ih =>
    have hc : c.1 ≠ a := h c (by simp)
    simp [Memory.get, hc, ih (fun d hd => h d (by simp [hd]))]

theorem Memory.get_cons (a : Nat) (v : Byte) (m : Memory) (b : Nat) (h : ∀ c ∈ m, c.1 ≠ a) :
    (Memory.cons a v m).get b = if b = a then v else m.get b := by
  unfold Memory.cons
  split
  next hv =>
    split
    next hb => rw [hb, Memory.get_of_absent m a h, hv]
    next => rfl
  next =>
    by_cases hb : b = a
    · simp [Memory.get, hb]
    · simp [Memory.get, hb, Ne.symm hb]

/-- A read after a write: the cell written holds the byte, every other cell is as it was. -/
theorem Memory.get_put (m : Memory) (a : Nat) (v : Byte) (b : Nat) (h : m.Pairwise (fun c d => c.1 < d.1)) :
    (m.put a v).get b = if b = a then v else m.get b := by
  induction m with
  | nil => exact Memory.get_cons a v [] b (by simp)
  | cons c m ih =>
    obtain ⟨hc, hm⟩ := List.pairwise_cons.1 h
    unfold Memory.put
    split
    next hlt =>
      refine Memory.get_cons a v (c :: m) b fun d hd => ?_
      rcases List.mem_cons.1 hd with rfl | hd
      · omega
      · have := hc d hd; omega
    next =>
      split
      next heq =>
        rw [Memory.get_cons a v m b fun d hd => by have := hc d hd; omega]
        by_cases hb : b = a
        · simp [hb]
        · simp [Memory.get, hb, show c.1 ≠ b by omega]
      next hne =>
        by_cases hb : c.1 = b
        · simp [Memory.get, hb, show b ≠ a by omega]
        · simp [Memory.get, hb, ih hm]

@[simp] theorem Memory.wf_nil : Memory.wf [] := by simp [Memory.wf]

theorem Memory.cons_wf (a : Nat) (v : Byte) (m : Memory) (ha : a < 256) (hm : m.wf) (h : ∀ c ∈ m, a < c.1) :
    (Memory.cons a v m).wf := by
  unfold Memory.cons
  split
  next => exact hm
  next hv =>
    refine ⟨List.pairwise_cons.2 ⟨h, hm.1⟩, fun c hc => ?_⟩
    rcases List.mem_cons.1 hc with rfl | hc
    · exact ⟨ha, hv⟩
    · exact hm.2 c hc

/-- The addresses of a memory after a write are the old ones and the address written. -/
theorem Memory.mem_put (m : Memory) (a : Nat) (v : Byte) (c : Host.Cell) (h : c ∈ m.put a v) : c ∈ m ∨ c.1 = a := by
  have hcons : ∀ l : Memory, c ∈ Memory.cons a v l → c ∈ l ∨ c.1 = a := by
    intro l hl
    unfold Memory.cons at hl
    split at hl
    · exact .inl hl
    · rcases List.mem_cons.1 hl with rfl | hl
      · exact .inr rfl
      · exact .inl hl
  induction m with
  | nil => exact hcons [] h
  | cons d m ih =>
    unfold Memory.put at h
    split at h
    · exact hcons _ h
    · split at h
      · exact (hcons _ h).imp_left (List.mem_cons_of_mem d)
      · rcases List.mem_cons.1 h with rfl | h
        · exact .inl (by simp)
        · exact (ih h).imp_left (List.mem_cons_of_mem d)

/-- A write keeps the canonical form. -/
theorem Memory.put_wf (m : Memory) (a : Nat) (v : Byte) (ha : a < 256) (h : m.wf) : (m.put a v).wf := by
  induction m with
  | nil => exact Memory.cons_wf a v [] ha h (by simp)
  | cons c m ih =>
    obtain ⟨hc, hm⟩ := List.pairwise_cons.1 h.1
    have hwf : Memory.wf m := ⟨hm, fun d hd => h.2 d (by simp [hd])⟩
    unfold Memory.put
    split
    next hlt =>
      refine Memory.cons_wf a v _ ha h fun d hd => ?_
      rcases List.mem_cons.1 hd with rfl | hd
      · exact hlt
      · have := hc d hd; omega
    next =>
      split
      next heq => exact Memory.cons_wf a v m ha hwf fun d hd => by have := hc d hd; omega
      next hne =>
        refine ⟨List.pairwise_cons.2 ⟨fun d hd => ?_, (ih hwf).1⟩, fun d hd => ?_⟩
        · rcases Memory.mem_put m a v d hd with hd | hd
          · exact hc d hd
          · omega
        · rcases List.mem_cons.1 hd with rfl | hd
          · exact h.2 d (by simp)
          · exact (ih hwf).2 d hd

/-- Everything a read of the Memory can answer. -/
theorem memRead_of_lt {a : Nat} (h : a < 256) (s : State) : memRead a s = .ok (s.mem.get a) := if_pos h

theorem memRead_of_ge {a : Nat} (h : 256 ≤ a) (s : State) : memRead a s = .error (.outOfBounds a) :=
  if_neg (by omega)

/-- Everything a write to the Memory can answer. -/
theorem memWrite_of_lt {a : Nat} (h : a < 256) (v : Int) (s : State) :
    memWrite a v s = .ok (BitVec.ofInt 8 v, { s with mem := s.mem.put a (BitVec.ofInt 8 v) }) := if_pos h

theorem memWrite_of_ge {a : Nat} (h : 256 ≤ a) (v : Int) (s : State) : memWrite a v s = .error (.outOfBounds a) :=
  if_neg (by omega)

/-- A write to the Memory that succeeds keeps the canonical form. -/
theorem memWrite_wf {a : Nat} {v : Int} {s t : State} {b : Byte} (h : memWrite a v s = .ok (b, t)) (hm : s.mem.wf) :
    t.mem.wf := by
  unfold memWrite at h
  split at h
  next ha => cases h; exact Memory.put_wf _ _ _ ha hm
  next => cases h

end Sys2Proof.Machine
end

