-- ==== Sys2Proof/Laws/Ops.lean ====
section
/-! SUPPORT. Everything the register operations, the operand forms and the end of an instruction can answer. -/

namespace Sys2Proof.Machine

@[simp] theorem regNorm_inf (v : Value) : regNorm .inf v = v := rfl

@[simp] theorem regNorm_regWidth (v : Value) : regNorm regWidth v = v := rfl

theorem regNorm_idem (w : Config.RegWidth) (v : Value) : regNorm w (regNorm w v) = regNorm w v := by
  cases w with
  | inf => rfl
  | bits n => exact Int.emod_emod_of_dvd v (Int.dvd_refl _)

/-- A byte is a value of every legal register width. -/
theorem regNorm_zext (w : Config.RegWidth) (h : regWidthLegal w = true) (b : Byte) : regNorm w (zext b) = zext b := by
  cases w with
  | inf => rfl
  | bits n =>
    have hn : 8 ≤ n := by simpa [regWidthLegal] using h
    have hp : (2 : Int) ^ 8 ≤ 2 ^ n := pow_le_pow_right₀ (by norm_num) hn
    have hb := b.isLt
    refine Int.emod_eq_of_lt (by simp [zext]) ?_
    simp only [zext]
    omega

theorem readReg_of_lt {i : Nat} (h : i < 8) (s : State) : readReg i s = .ok s.reg[i] := dif_pos h

theorem readReg_of_ge {i : Nat} (h : 8 ≤ i) (s : State) : readReg i s = .error (.invalidRegister i) :=
  dif_neg (by omega)

theorem writeReg_of_lt {i : Nat} (h : i < 8) (w : Config.RegWidth) (v : Value) (s : State) :
    writeReg w i v s = .ok { s with reg := s.reg.set i (regNorm w v) } := dif_pos h

theorem writeReg_of_ge {i : Nat} (h : 8 ≤ i) (w : Config.RegWidth) (v : Value) (s : State) :
    writeReg w i v s = .error (.invalidRegister i) := dif_neg (by omega)

@[simp] theorem attempt_ok (s t : State) : attempt s (.ok t) = .next t := rfl

@[simp] theorem attempt_error (s : State) (k : FatalKind) : attempt s (.error k) = .next (raise k s) := rfl

/-- The end of an instruction's action is always a next state: its result, or the error taken in the old state. -/
theorem attempt_next {s t : State} {r : Except FatalKind State} (h : attempt s r = .next t) :
    r = .ok t ∨ ∃ k, r = .error k ∧ t = raise k s := by
  cases r with
  | ok u => exact .inl (by simpa [attempt] using h)
  | error k => exact .inr ⟨k, rfl, by simpa [attempt] using h.symm⟩

end Sys2Proof.Machine
end

