-- ==== Sys2Proof/Laws/Exec.lean ====
section
/-! SUPPORT. Everything the meanings and the alu's use by the engine can answer: one lemma per shared operation,
which the proofs cite instead of unfolding it. -/

namespace Sys2Proof.Machine

/-- LDI takes a next state in every state. -/
theorem ldiAt_cases (w : Config.RegWidth) (r v : Byte) (s : State) :
    (∃ h : r.toNat < 8,
      ldiAt w r v s = .next (advance 3 { s with reg := s.reg.set r.toNat (regNorm w (zext v)) h })) ∨
    (8 ≤ r.toNat ∧ ldiAt w r v s = .next (raise (.invalidRegister r.toNat) s)) := by
  rcases Nat.lt_or_ge r.toNat 8 with h | h
  · exact .inl ⟨h, by simp [ldiAt, regIndex, immOperand, writeReg_of_lt h, bind, Except.bind, pure, Except.pure]⟩
  · exact .inr ⟨h, by simp [ldiAt, regIndex, writeReg_of_ge h, bind, Except.bind]⟩

/-- PRN takes a next state in every state. -/
theorem execPrn_cases (r : Byte) (s : State) :
    (∃ h : r.toNat < 8, execPrn r s = .next (advance 2 (emit (s.reg[r.toNat]'h) s))) ∨
    (8 ≤ r.toNat ∧ execPrn r s = .next (raise (.invalidRegister r.toNat) s)) := by
  rcases Nat.lt_or_ge r.toNat 8 with h | h
  · exact .inl ⟨h, by simp [execPrn, regOperand, regIndex, readReg_of_lt h, bind, Except.bind, pure, Except.pure]⟩
  · exact .inr ⟨h, by simp [execPrn, regOperand, regIndex, readReg_of_ge h, bind, Except.bind]⟩

/-- The engine's use of the alu: an index outside the Register File, in operand order, an error of the alu, or the
result in the first register. -/
theorem aluOnRegs_cases (w : Config.RegWidth) (op : AluOp) (a b : Byte) (s : State) :
    (∃ (ha : a.toNat < 8) (hb : b.toNat < 8),
      (∃ v, aluApply op (s.reg[a.toNat]'ha) (s.reg[b.toNat]'hb) = .ok v ∧
        aluOnRegs w op a b s = .ok { s with reg := s.reg.set a.toNat (regNorm w v) ha }) ∨
      (∃ k, aluApply op (s.reg[a.toNat]'ha) (s.reg[b.toNat]'hb) = .error k ∧ aluOnRegs w op a b s = .error k)) ∨
    (8 ≤ a.toNat ∧ aluOnRegs w op a b s = .error (.invalidRegister a.toNat)) ∨
    (a.toNat < 8 ∧ 8 ≤ b.toNat ∧ aluOnRegs w op a b s = .error (.invalidRegister b.toNat)) := by
  rcases Nat.lt_or_ge a.toNat 8 with ha | ha
  · rcases Nat.lt_or_ge b.toNat 8 with hb | hb
    · refine .inl ⟨ha, hb, ?_⟩
      cases h : aluApply op (s.reg[a.toNat]'ha) (s.reg[b.toNat]'hb) with
      | ok v =>
        exact .inl ⟨v, rfl, by
          simp [aluOnRegs, regOperand, regIndex, readReg_of_lt ha, readReg_of_lt hb, h, writeReg_of_lt ha, bind,
            Except.bind]⟩
      | error k =>
        exact .inr ⟨k, rfl, by
          simp [aluOnRegs, regOperand, regIndex, readReg_of_lt ha, readReg_of_lt hb, h, bind, Except.bind]⟩
    · exact .inr (.inr ⟨ha, hb, by
        simp [aluOnRegs, regOperand, regIndex, readReg_of_lt ha, readReg_of_ge hb, bind, Except.bind]⟩)
  · exact .inr (.inl ⟨ha, by simp [aluOnRegs, regOperand, regIndex, readReg_of_ge ha, bind, Except.bind]⟩)

/-- MUL takes a next state in every state. -/
theorem mulAt_cases (w : Config.RegWidth) (a b : Byte) (s : State) :
    (∃ (ha : a.toNat < 8) (hb : b.toNat < 8), mulAt w a b s = .next (advance 3
      { s with reg := s.reg.set a.toNat (regNorm w (s.reg[a.toNat]'ha * s.reg[b.toNat]'hb)) ha })) ∨
    (8 ≤ a.toNat ∧ mulAt w a b s = .next (raise (.invalidRegister a.toNat) s)) ∨
    (a.toNat < 8 ∧ 8 ≤ b.toNat ∧ mulAt w a b s = .next (raise (.invalidRegister b.toNat) s)) := by
  rcases aluOnRegs_cases w .mul a b s with ⟨ha, hb, ⟨v, hv, h⟩ | ⟨k, hk, _⟩⟩ | ⟨ha, h⟩ | ⟨ha, hb, h⟩
  · have hv : s.reg[a.toNat]'ha * s.reg[b.toNat]'hb = v := by simpa [aluApply] using hv
    exact .inl ⟨ha, hb, by simp [mulAt, h, hv, bind, Except.bind, pure, Except.pure]⟩
  · simp [aluApply] at hk
  · exact .inr (.inl ⟨ha, by simp [mulAt, h, bind, Except.bind]⟩)
  · exact .inr (.inr ⟨ha, hb, by simp [mulAt, h, bind, Except.bind]⟩)

@[simp] theorem execHlt_eq (s : State) : execHlt s = .next (setRunning false s) := rfl

@[simp] theorem execUnknown_eq (b : Byte) (s : State) : execUnknown b s = .next (advance 1 (report b s)) := rfl

/-- EVERYTHING AN INSTRUCTION CAN DO, at any register width: it takes a next state `t`, which is `InvalidRegister` taken
in the old state, or the old state with the instruction's own effect. -/
theorem execAt_cases (w : Config.RegWidth) (i : Instr) (s : State) : ∃ t, execAt w i s = .next t ∧
    ((i.regsLegal = false ∧ ∃ n, 8 ≤ n ∧ n < 256 ∧ t = raise (.invalidRegister n) s) ∨
     (i.regsLegal = true ∧
      ((∃ (r v : Byte) (h : r.toNat < 8), i = .ldi r v ∧
          t = advance 3 { s with reg := s.reg.set r.toNat (regNorm w (zext v)) h }) ∨
       (∃ (r : Byte) (h : r.toNat < 8), i = .prn r ∧ t = advance 2 (emit (s.reg[r.toNat]'h) s)) ∨
       (∃ (a b : Byte) (ha : a.toNat < 8) (hb : b.toNat < 8), i = .mul a b ∧
          t = advance 3 { s with reg := s.reg.set a.toNat (regNorm w (s.reg[a.toNat]'ha * s.reg[b.toNat]'hb)) ha }) ∨
       (i = .hlt ∧ t = setRunning false s) ∨
       ∃ b, i = .unknown b ∧ t = advance 1 (report b s)))) := by
  have lt : ∀ r : Byte, r.toNat < 256 := fun r => r.isLt
  cases i with
  | ldi r v =>
    rcases ldiAt_cases w r v s with ⟨h, h'⟩ | ⟨h, h'⟩
    · exact ⟨_, h', .inr ⟨by simp [Instr.regsLegal, h], .inl ⟨r, v, h, rfl, rfl⟩⟩⟩
    · exact ⟨_, h', .inl ⟨by simp [Instr.regsLegal, h], _, h, lt r, rfl⟩⟩
  | prn r =>
    rcases execPrn_cases r s with ⟨h, h'⟩ | ⟨h, h'⟩
    · exact ⟨_, h', .inr ⟨by simp [Instr.regsLegal, h], .inr (.inl ⟨r, h, rfl, rfl⟩)⟩⟩
    · exact ⟨_, h', .inl ⟨by simp [Instr.regsLegal, h], _, h, lt r, rfl⟩⟩
  | mul a b =>
    rcases mulAt_cases w a b s with ⟨ha, hb, h'⟩ | ⟨h, h'⟩ | ⟨ha, h, h'⟩
    · exact ⟨_, h', .inr ⟨by simp [Instr.regsLegal, ha, hb], .inr (.inr (.inl ⟨a, b, ha, hb, rfl, rfl⟩))⟩⟩
    · exact ⟨_, h', .inl ⟨by simp [Instr.regsLegal, h], _, h, lt a, rfl⟩⟩
    · exact ⟨_, h', .inl ⟨by simp [Instr.regsLegal, h], _, h, lt b, rfl⟩⟩
  | hlt => exact ⟨_, rfl, .inr ⟨rfl, .inr (.inr (.inr (.inl ⟨rfl, rfl⟩)))⟩⟩
  | unknown b => exact ⟨_, rfl, .inr ⟨rfl, .inr (.inr (.inr (.inr ⟨b, rfl, rfl⟩)))⟩⟩

end Sys2Proof.Machine
end

