-- ==== Sys2Proof/Laws/PerInstr.lean ====
section
/-! SUPPORT. The statement made of every instruction as syntax: its encoding has exactly its length in bytes, and the
opcode byte alone tells that length (30_encoding.md R50, R57). -/

namespace Sys2Proof.Laws

/-- The encoding has as many bytes as the kind of its first byte says. -/
def EncodedLength.Statement (i : Instr) : Prop :=
  ∀ opc, Machine.opcMulLegal opc = true → i.wfAt opc = true →
    (encodeAt opc i).length = i.length ∧
    ∃ op tl, encodeAt opc i = op :: tl ∧ tl.length = (decodeKind opc op).operandCount

theorem EncodedLength.ldi (r v : Byte) : EncodedLength.Statement (.ldi r v) :=
  fun opc _ _ => ⟨rfl, _, _, rfl, by simp [decodeKind_ldi opc, Kind.operandCount]⟩

theorem EncodedLength.prn (r : Byte) : EncodedLength.Statement (.prn r) :=
  fun opc _ _ => ⟨rfl, _, _, rfl, by simp [decodeKind_prn opc, Kind.operandCount]⟩

theorem EncodedLength.mul (a b : Byte) : EncodedLength.Statement (.mul a b) :=
  fun _ h _ => ⟨rfl, _, _, rfl, by simp [decodeKind_mul h, Kind.operandCount]⟩

theorem EncodedLength.hlt : EncodedLength.Statement .hlt :=
  fun _ h _ => ⟨rfl, _, _, rfl, by simp [decodeKind_hlt h, Kind.operandCount]⟩

theorem EncodedLength.unknown (b : Byte) : EncodedLength.Statement (.unknown b) :=
  fun _ _ hw => ⟨rfl, _, _, rfl, by
    simp [decodeKind_unknown (by simpa [Instr.wfAt] using hw), Kind.operandCount]⟩

end Sys2Proof.Laws
end

