-- ==== Sys2Proof/Laws/Step.lean ====
section
/-! SUPPORT. Everything one step of the machine can do, at any parameters: said once, for the proofs to cite. -/

namespace Sys2Proof.Machine

/-- The cells from an address on, one by one. -/
theorem Memory.bytesFrom_get (m : Memory) (a k : Nat) :
    (m.bytesFrom a)[k]? = if a + k < 256 then some (m.get (a + k)) else none := by
  unfold Memory.bytesFrom
  rw [List.getElem?_map]
  by_cases h : k < 256 - a
  · rw [List.getElem?_range' h, if_pos (by omega)]; simp
  · rw [List.getElem?_eq_none (by simpa using h), if_neg (by omega)]; rfl

/-- The reader of those bytes, as the decoder uses it. -/
theorem byteOf_bytesFrom (m : Memory) (a k : Nat) : byteOf (m.bytesFrom a) k =
    if a + k < 256 then .ok (m.get (a + k)) else .error (if k = 0 then .noOpcode else .noOperand k) := by
  unfold byteOf
  rw [Memory.bytesFrom_get]
  split_ifs <;> rfl

/-- The two ways a step comes to run a pass of the loop, in the state `b`: the engine is running with its flag true, or
it enters the run. -/
abbrev EntersPass (s b : State) : Prop :=
  (s.engine = .running ∧ s.running = true ∧ b = s) ∨
  ((s.engine = .idle ∨ s.engine = .halted) ∧ b = { s with running := true, engine := .running })

/-- Such a step is the pass and the loop test, from a state that is ready and fetches what `s` fetches. -/
theorem cycle_of_entersPass (opc : Byte) (ex : Instr → State → Result) {s b : State} (h : EntersPass s b) :
    cycle opc ex s = closeLoop (loopPass opc ex b) ∧ b.ready ∧ fetchInstr opc b = fetchInstr opc s := by
  rcases h with ⟨h1, h2, rfl⟩ | ⟨h, rfl⟩
  · exact ⟨cycle_of_running _ _ h1 h2, ⟨h1, h2⟩, rfl⟩
  · exact ⟨cycle_of_not_running _ _ h, ⟨rfl, rfl⟩, rfl⟩

/-- EVERYTHING A STEP CAN DO: a faulted engine has none, a running engine whose flag is false halts, and every other
runs a pass. -/
theorem stepAt_cases (p : Config.Params) (s : State) :
    (∃ k, s.engine = .faulted k ∧ stepAt p s = .fault (.engineFaulted k)) ∨
    (s.engine = .running ∧ s.running = false ∧ stepAt p s = .next { s with engine := .halted }) ∨
    ∃ b, EntersPass s b ∧ b.ready ∧ fetchInstr p.opcMul b = fetchInstr p.opcMul s ∧
      stepAt p s = closeLoop (loopPass p.opcMul (execAt p.regWidth) b) := by
  have pass : ∀ b, EntersPass s b → ∃ b, EntersPass s b ∧ b.ready ∧
      fetchInstr p.opcMul b = fetchInstr p.opcMul s ∧
      stepAt p s = closeLoop (loopPass p.opcMul (execAt p.regWidth) b) := fun b h =>
    have c := cycle_of_entersPass p.opcMul (execAt p.regWidth) h
    ⟨b, h, c.2.1, c.2.2, c.1⟩
  rcases he : s.engine with _ | _ | _ | k
  · exact .inr (.inr (pass _ (.inr ⟨.inl he, rfl⟩)))
  · cases hr : s.running with
    | false =>
      have h := cycle_of_stopped p.opcMul (execAt p.regWidth) he hr
      exact .inr (.inl ⟨rfl, rfl, hr ▸ h⟩)
    | true => exact .inr (.inr (pass s (.inl ⟨he, hr, rfl⟩)))
  · exact .inr (.inr (pass _ (.inr ⟨.inr he, rfl⟩)))
  · exact .inl ⟨k, rfl, cycle_of_faulted _ _ he⟩

/-- EVERYTHING A PASS CAN DO, with the loop test after it: it takes a next state, which is the error of its fetch, or
`InvalidRegister`, taken in the old state, or the old state with the effect of the instruction it fetched. -/
theorem closedPass_cases (p : Config.Params) {b : State} (hb : b.ready) :
    ∃ t, closeLoop (loopPass p.opcMul (execAt p.regWidth) b) = .next t ∧
    ((∃ k, fetchInstr p.opcMul b = .error k ∧ t = raise k b) ∨
     ∃ i, fetchInstr p.opcMul b = .ok i ∧
      ((i.regsLegal = false ∧ ∃ n, 8 ≤ n ∧ n < 256 ∧ t = raise (.invalidRegister n) b) ∨
       (i.regsLegal = true ∧
        ((∃ (r v : Byte) (h : r.toNat < 8), i = .ldi r v ∧
            t = advance 3 { b with reg := b.reg.set r.toNat (regNorm p.regWidth (zext v)) h }) ∨
         (∃ (r : Byte) (h : r.toNat < 8), i = .prn r ∧ t = advance 2 (emit (b.reg[r.toNat]'h) b)) ∨
         (∃ (x y : Byte) (hx : x.toNat < 8) (hy : y.toNat < 8), i = .mul x y ∧ t = advance 3
            { b with reg := b.reg.set x.toNat (regNorm p.regWidth (b.reg[x.toNat]'hx * b.reg[y.toNat]'hy)) hx }) ∨
         (i = .hlt ∧ t = { b with running := false, engine := .halted }) ∨
         ∃ x, i = .unknown x ∧ t = advance 1 (report x b))))) := by
  obtain ⟨he, hr⟩ := hb
  cases hf : fetchInstr p.opcMul b with
  | error k => exact ⟨_, by rw [loopPass_of_error hf, closeLoop_next, loopExit_of_running]; exact hr, .inl ⟨k, rfl, rfl⟩⟩
  | ok i =>
    obtain ⟨t, ht, h⟩ := execAt_cases p.regWidth i b
    rw [loopPass_of_fetch hf, ht, closeLoop_next]
    rcases h with ⟨hl, n, h1, h2, rfl⟩ | ⟨hl, h⟩
    · exact ⟨_, by rw [loopExit_of_running]; exact hr, .inr ⟨i, rfl, .inl ⟨hl, n, h1, h2, rfl⟩⟩⟩
    · rcases h with ⟨r, v, h, rfl, rfl⟩ | ⟨r, h, rfl, rfl⟩ | ⟨x, y, hx, hy, rfl, rfl⟩ | ⟨rfl, rfl⟩ | ⟨x, rfl, rfl⟩
      · exact ⟨_, by rw [loopExit_of_running]; exact hr, .inr ⟨_, rfl, .inr ⟨hl, .inl ⟨r, v, h, rfl, rfl⟩⟩⟩⟩
      · exact ⟨_, by rw [loopExit_of_running]; exact hr, .inr ⟨_, rfl, .inr ⟨hl, .inr (.inl ⟨r, h, rfl, rfl⟩)⟩⟩⟩
      · exact ⟨_, by rw [loopExit_of_running]; exact hr,
          .inr ⟨_, rfl, .inr ⟨hl, .inr (.inr (.inl ⟨x, y, hx, hy, rfl, rfl⟩))⟩⟩⟩
      · refine ⟨{ b with running := false, engine := .halted }, ?_,
          .inr ⟨_, rfl, .inr ⟨hl, .inr (.inr (.inr (.inl ⟨rfl, rfl⟩)))⟩⟩⟩
        rw [loopExit_of_stopped (s := setRunning false b) he rfl]; rfl
      · exact ⟨_, by rw [loopExit_of_running]; exact hr,
          .inr ⟨_, rfl, .inr ⟨hl, .inr (.inr (.inr (.inr ⟨x, rfl, rfl⟩)))⟩⟩⟩

end Sys2Proof.Machine
end

