-- ==== Sys2Proof/Tests/Slice0.lean ====
section
/-! SUPPORT. The model's own tests: decoding, one step of each instruction (expected results from spec/95_test_vectors.md),
the WellFormed smoke, and for every statement with hypotheses a state and operands that meet them (`witness_…`). -/

namespace Sys2Proof.Tests

open Sys2Proof Sys2Proof.Machine

/-- Register values for the tests: R0 = 8, R1 = 9, R4 = 255, R7 = -3. -/
def regs : Vector Value 8 := #v[8, 9, 0, 200, 255, 0, 0, -3]

/-- A running machine with these bytes at address `a`, which is where its pc stands. -/
def running (bs : List Byte) (a : Nat) : State :=
  State.placeBytes bs a { State.resetWith regs with pc := a, running := true, engine := .running }

/-- The same bytes at `a` in an engine that has not been run. -/
def idleAt (bs : List Byte) (a : Nat) : State := { running bs a with running := false, engine := .idle }

/-- The next state of a result. -/
def nextOf : Result → Option State
  | .next t => some t
  | .fault _ => none
  | .refused _ => none

/-- The parameters with a 16-bit register. -/
def wide16 : Config.Params := { regWidth := .bits 16, opcMul := 0xA2 }

/-! ### WellFormed: the one check, with ill-formed terms it refuses -/

theorem test_wf_refuses_unknown_of_ldi : (Instr.unknown 0x82).wf = false := by decide
theorem test_wf_refuses_unknown_of_prn : (Instr.unknown 0x47).wf = false := by decide
theorem test_wf_refuses_unknown_of_mul : (Instr.unknown 0xA2).wf = false := by decide
theorem test_wf_refuses_unknown_of_hlt : (Instr.unknown 0x01).wf = false := by decide
theorem test_wf_accepts_unknown_zero : (Instr.unknown 0x00).wf = true := by decide
theorem test_wf_accepts_register_byte_above_seven : (Instr.ldi 0xFF 5).wf = true := by decide
theorem test_regs_refuse_register_byte_eight : (Instr.mul 0 8).regsLegal = false := by decide

/-! ### Decoding: words written out from the encodings of 30_encoding.md R51, R55, and V1 of 95_test_vectors.md -/

theorem test_decode_ldi : decode [0b10000010, 0b00000000, 0b00001000] = .ok (.ldi 0 8, []) := by rfl
theorem test_decode_prn : decode [0b01000111, 0b00000111, 0x01] = .ok (.prn 7, [0x01]) := by rfl
theorem test_decode_mul : decode [0b10100010, 0b00000001, 0b00000000] = .ok (.mul 1 0, []) := by rfl
theorem test_decode_hlt : decode [0b00000001] = .ok (.hlt, []) := by rfl
theorem test_decode_unknown : decode [0b11000010, 0x01] = .ok (.unknown 0xC2, [0x01]) := by rfl
theorem test_decode_neighbours_are_unknown :
    ∀ b ∈ [0x00, 0x02, 0x46, 0x48, 0x81, 0x83, 0xA0, 0xA1, 0xA3, 0xC2, 0xFF], decodeKind opcMul b = .unknown := by decide
theorem test_decode_no_opcode : decode [] = .error .noOpcode := by rfl
theorem test_decode_cut_operand : decode [0x82, 0x09] = .error (.noOperand 2) := by rfl
theorem test_table_word_order : decodeTableWord 24 0x080582 = some (.ldi 5 8) := by decide
theorem test_table_word_pads_with_zeros : decodeTableWord 8 0x82 = some (.ldi 0 0) := by decide
theorem test_encode_mul : encode (.mul 6 1) = [0b10100010, 0b00000110, 0b00000001] := by decide

/-! ### One step of each instruction (V2, V3, V4, V6, V8) -/

theorem test_ldi_is_unsigned : (nextOf (step (running [0x82, 0x07, 0xFF] 0))).map (fun t => (t.reg[7], t.pc)) =
    some (255, 3) := by decide
theorem test_ldi_at_253_leaves_pc_256 : (nextOf (step (running [0x82, 0x03, 0x07] 253))).map
    (fun t => (t.reg[3], t.pc, t.engine)) = some (7, 256, .running) := by decide
theorem test_prn_appends_whole_value : (nextOf (step (running [0x47, 0x01] 254))).map (fun t => (t.out, t.pc)) =
    some ([9], 256) := by decide
theorem test_prn_of_register_eight_faults : (nextOf (step (running [0x47, 0x08] 0))).map
    (fun t => (t.out, t.pc, t.engine, t.running)) = some ([], 0, .faulted (.invalidRegister 8), true) := by decide
theorem test_mul_first_operand_is_destination : (nextOf (step (running [0xA2, 0x01, 0x00] 6))).map
    (fun t => (t.reg[0], t.reg[1], t.pc)) = some (8, 72, 9) := by decide
theorem test_mul_same_register_squares : (nextOf (step (running [0xA2, 0x04, 0x04] 0))).map (fun t => t.reg[4]) =
    some 65025 := by decide
theorem test_hlt_at_255 : (nextOf (step (running [0x01] 255))).map (fun t => (t.running, t.engine, t.pc)) =
    some (false, .halted, 255) := by decide
theorem test_hlt_again_changes_nothing : (nextOf (step (running [0x01] 5))).bind (fun t => nextOf (step t)) =
    nextOf (step (running [0x01] 5)) := by decide
theorem test_unknown_skips_one : (nextOf (step (running [0xC2] 0))).map (fun t => (t.diag, t.pc, t.engine)) =
    some ([.unknownOpcode 0xC2], 1, .running) := by decide
theorem test_unknown_at_255_then_fault : ((nextOf (step (running [0xFF] 255))).bind (fun t => nextOf (step t))).map
    (fun t => (t.diag, t.pc, t.engine)) = some ([.unknownOpcode 0xFF], 256, .faulted (.outOfBounds 256)) := by decide
theorem test_fetch_error_before_register_error : (nextOf (step (running [0x82, 0x09] 254))).map
    (fun t => (t.pc, t.engine)) = some (254, .faulted (.outOfBounds 256)) := by decide
theorem test_first_register_error_first : (nextOf (step (running [0xA2, 0x08, 0x09] 0))).map (fun t => t.engine) =
    some (.faulted (.invalidRegister 8)) := by decide

/-! ### The alu, the containers, the channels and the Loader (V5, V7, S4) -/

theorem test_sub_is_first_minus_second : aluApply .sub 3 5 = .ok (-2) := by rfl
theorem test_sub_stores_remainder_at_width_8 : regNorm (.bits 8) (-2) = 254 := by decide
theorem test_mul_at_width_16 : (nextOf (stepAt wide16 (running [0xA2, 0x04, 0x04] 0))).map (fun t => t.reg[4]) =
    some 65025 := by decide
theorem test_div_exact_of_negative : aluApply .div (-6) 3 = .ok (-2) := by rfl
theorem test_div_by_zero : aluApply .div 7 0 = .error .divideByZero := by rfl
theorem test_alu_other : aluApply (.other "XOR") 1 2 = .error (.unsupportedOperation (.other "XOR")) := by rfl
theorem test_memWrite_truncates :
    (match memWrite 3 300 State.reset with | .ok r => (r.1, r.2.mem) | .error _ => (0, [])) = (44, [(3, 44)]) := by decide
theorem test_writing_zero_unlists : Memory.put [(1, 2), (3, 4)] 3 0 = [(1, 2)] := by decide
theorem test_dec_negative : dec (-2) = "-2" := by decide
theorem test_dec_large : dec 4228250625 = "4228250625" := by decide
theorem test_loader_token : loaderBytes ["# LDI".toList, [], "10000010 x".toList, "00000111".toList] = some [0x82, 7] := by
  decide

/-! ### Witnesses: a state and operands that meet the hypotheses of each statement -/

theorem running_ready (bs : List Byte) (a : Nat) : (running bs a).ready := by
  have h : ∀ (l : List Byte) (k : Nat) (s : State), s.ready → (State.placeBytes l k s).ready := by
    intro l
    induction l with
    | nil => exact fun _ _ hs => hs
    | cons b l ih => intro k s hs; exact ih _ _ (by split <;> exact hs)
  exact h bs a _ ⟨rfl, rfl⟩

theorem witness_ConstructionLeavesThisState :
    ∃ s, s = State.resetWith regs ∧ memRead 255 s = .ok 0 ∧ readReg 7 s = .ok (-3) := ⟨_, rfl, rfl, rfl⟩
theorem witness_MemReadContract : memRead 255 (running [7] 255) = .ok 7 ∧ 256 ≤ 256 := ⟨rfl, by decide⟩
theorem witness_MemWriteThenRead :
    State.reset.mem.wf ∧ (running [1, 2] 254).mem.wf ∧ 255 < 256 ∧ 256 ≤ 256 := by decide
theorem witness_ContainersFailOutsideTheirRange : (∃ (r : Except FatalKind State) (k : FatalKind), r = .error k) ∧
    memRead 256 State.reset = .error (.outOfBounds 256) ∧ memRead 255 State.reset = .ok 0 ∧
    readReg 8 State.reset = .error (.invalidRegister 8) ∧ readReg 7 (running [] 0) = .ok (-3) :=
  ⟨⟨.error .divideByZero, .divideByZero, rfl⟩, rfl, rfl, rfl, rfl⟩
theorem witness_CanonicalMemoriesThatReadAlikeAreEqual :
    ∃ m n : Memory, m.wf ∧ n.wf ∧ (∀ a, a < 256 → m.get a = n.get a) ∧ m ≠ [] :=
  ⟨[(0, 7), (255, 1)], [(0, 7), (255, 1)], by decide, by decide, fun _ _ => rfl, by decide⟩
theorem witness_RegisterWriteThenRead : 0 < 8 ∧ 7 < 8 ∧ 8 ≤ 8 := by decide
theorem witness_AluSumDifferenceProduct : (0x00 : Byte).toNat < 8 ∧ (0x07 : Byte).toNat < 8 ∧
    aluApply .sub ((running [] 0).reg[(0x00 : Byte).toNat]'(by decide)) ((running [] 0).reg[(0x07 : Byte).toNat]'(by decide)) =
      .ok 11 := ⟨by decide, by decide, rfl⟩
theorem witness_AluDivision :
    ((9 : Value) ≠ 0 ∧ (9 : Value) ∣ 72) ∧ ((2 : Value) ≠ 0 ∧ ¬ (2 : Value) ∣ 7) := by decide
theorem witness_DecoderNamesTheKind : opcMulLegal 0xA2 = true ∧ opcMulLegal 0x00 = true := by decide
theorem witness_DecodeOfEncode : opcMulLegal 0xA2 = true ∧ (Instr.mul 7 255).wfAt 0xA2 = true ∧
    (Instr.unknown 0xA3).wfAt 0xA2 = true := by decide
theorem witness_EncodeOfDecode :
    opcMulLegal 0xA2 = true ∧ decodeAt 0xA2 [0xA2, 7, 255, 1] = .ok (.mul 7 255, [1]) := ⟨by decide, rfl⟩
theorem witness_LdiCompletes : (0x07 : Byte).toNat < 8 ∧ (0x00 : Byte).toNat < 8 := by decide
theorem witness_PrnCompletes : (0x07 : Byte).toNat < 8 := by decide
theorem witness_MulCompletes : (0x07 : Byte).toNat < 8 ∧ (0x00 : Byte).toNat < 8 := by decide
theorem witness_RegisterByteAboveSevenFaults :
    8 ≤ (0x08 : Byte).toNat ∧ 8 ≤ (0xFF : Byte).toNat ∧ (0x07 : Byte).toNat < 8 := by decide
theorem witness_EveryInstructionCompletes :
    (Instr.mul 7 0).regsLegal = true ∧ (Instr.mul 7 8).regsLegal = false ∧ (Instr.prn 8).regsLegal = false ∧
    (0x07 : Byte).toNat < 8 ∧ 8 ≤ (0x08 : Byte).toNat ∧ 8 ≤ (0xFF : Byte).toNat := by decide
theorem witness_PcUpdate : (∃ t, execAt .inf (.ldi 7 1) (running [] 253) = .next t ∧ (Instr.ldi 7 1).regsLegal = true) ∧
    (∃ t, execAt .inf (.prn 8) (running [] 0) = .next t ∧ t.engine = .faulted (.invalidRegister 8) ∧
      (running [] 0).engine ≠ .faulted (.invalidRegister 8)) ∧
    ∃ t, execAt .inf .hlt (running [] 0) = .next t := ⟨⟨_, rfl, rfl⟩, ⟨_, rfl, rfl, by decide⟩, _, rfl⟩
theorem witness_RegistersAnInstructionTouches : ∃ t, execAt .inf (.mul 0 1) (running [] 0) = .next t ∧
    ∀ (j : Nat) (hj : j < 8), j = 0 ∨ j = 1 → (#v[8, 9, 1, 2, 3, 4, 5, 6] : Vector Value 8)[j] = (running [] 0).reg[j] :=
  ⟨_, rfl, by decide⟩
theorem witness_FrameOfEveryInstruction : ∃ t, execAt .inf (.mul 0 1) (running [] 0) = .next t ∧
    (∀ r v, Instr.mul 0 1 ≠ .ldi r v) ∧ Instr.mul 0 1 ≠ .hlt := ⟨_, rfl, by simp, by simp⟩
theorem witness_LdiThenPrnPrintsTheImmediate :
    regWidthLegal (.bits 8) = true ∧ regWidthLegal .inf = true ∧ (0x07 : Byte).toNat < 8 := by decide
theorem witness_LdiLdiMulPrnPrintsTheProduct :
    regWidthLegal (.bits 8) = true ∧ ¬ (255 * 255 < 2 ^ 8) ∧ regWidthLegal (.bits 16) = true ∧ 255 * 255 < 2 ^ 16 := by
  decide
theorem witness_DecIsTheDecimalString : (0 : Nat) = 0 ∧ (10 : Nat) ≠ 0 ∧ (-1 : Value) < 0 := by decide
theorem witness_WidthMattersForProductsOnly : regWidthLegal (.bits 8) = true ∧ (∀ a b, Instr.ldi 7 255 ≠ .mul a b) ∧
    (0x07 : Byte).toNat < 8 ∧ (Instr.mul 7 8).regsLegal = false := ⟨rfl, by simp, by decide, rfl⟩
theorem witness_FetchIsDecodeOfMemory :
    decodeAt opcMul ((running [0x47, 0x01] 254).mem.bytesFrom 254) = .ok (.prn 1, []) ∧
    decodeAt opcMul ((running [0x82, 0x01] 254).mem.bytesFrom 254) = .error (.noOperand 2) ∧
    decodeAt opcMul ((running [] 256).mem.bytesFrom 256) = .error .noOpcode := ⟨rfl, rfl, rfl⟩
theorem witness_StepRunsTheDecodedInstruction :
    decode ((running [0x47, 0x01] 254).mem.bytesFrom (running [0x47, 0x01] 254).pc) = .ok (.prn 1, []) ∧
    (running [0x47, 0x01] 254).engine = .running ∧ (running [0x47, 0x01] 254).running = true ∧
    State.reset.engine = .idle ∧ decode [0] = .ok (.unknown 0, []) := ⟨rfl, rfl, rfl, rfl, rfl⟩
theorem witness_StepTakesTheFetchError :
    decode ((running [0x82, 0x01] 254).mem.bytesFrom (running [0x82, 0x01] 254).pc) = .error (.noOperand 2) ∧
    (running [0x82, 0x01] 254).engine = .running ∧ (running [0x82, 0x01] 254).running = true ∧
    decode ((idleAt [0x82, 0x01] 254).mem.bytesFrom (idleAt [0x82, 0x01] 254).pc) = .error (.noOperand 2) ∧
    (idleAt [0x82, 0x01] 254).engine = .idle ∧
    step (idleAt [0x82, 0x01] 254) = .next
      { idleAt [0x82, 0x01] 254 with running := true, engine := .faulted (.outOfBounds 256) } :=
  ⟨rfl, rfl, rfl, rfl, rfl, rfl⟩
theorem witness_StepsWithoutAPass :
    (raise .divideByZero State.reset).engine = .faulted .divideByZero ∧
    (setRunning false (running [] 0)).engine = .running ∧ (setRunning false (running [] 0)).running = false :=
  ⟨rfl, rfl, rfl⟩
theorem witness_StepAnswersANextState : ∀ k, State.reset.engine ≠ .faulted k := by
  intro k; simp [State.reset, State.resetWith]
theorem witness_LdiStepSetsItsRegister : (running [0x82, 7, 255] 253).ready ∧ (running [0x82, 7, 255] 253).pc ≤ 253 ∧
    memRead 253 (running [0x82, 7, 255] 253) = .ok 0x82 ∧ memRead 254 (running [0x82, 7, 255] 253) = .ok 7 ∧
    memRead 255 (running [0x82, 7, 255] 253) = .ok 255 ∧ regWidthLegal wide16.regWidth = true :=
  ⟨running_ready _ _, by decide, rfl, rfl, rfl, rfl⟩
theorem witness_HltStepHalts : opcMulLegal wide16.opcMul = true ∧ (running [0x01] 255).ready ∧
    memRead 255 (running [0x01] 255) = .ok 0x01 := ⟨rfl, running_ready _ _, rfl⟩
theorem witness_UnknownStepSkipsOneByte : (running [0xFF] 255).ready ∧ memRead 255 (running [0xFF] 255) = .ok 0xFF ∧
    (0xFF : Byte) ≠ 0x82 ∧ (0xFF : Byte) ≠ 0x47 ∧ (0xFF : Byte) ≠ wide16.opcMul ∧ (0xFF : Byte) ≠ 0x01 :=
  ⟨running_ready _ _, rfl, by decide⟩
theorem witness_UnknownThenHltHalts : (running [0x55, 0x01] 254).ready ∧
    memRead 254 (running [0x55, 0x01] 254) = .ok 0x55 ∧ memRead 255 (running [0x55, 0x01] 254) = .ok 0x01 ∧
    (0x55 : Byte) ≠ 0x82 ∧ (0x55 : Byte) ≠ 0x47 ∧ (0x55 : Byte) ≠ wide16.opcMul ∧ (0x55 : Byte) ≠ 0x01 :=
  ⟨running_ready _ _, rfl, rfl, by decide⟩
theorem witness_FirstErrorInOrderIsReported : (running [] 256).ready ∧ 256 ≤ (running [] 256).pc ∧
    (running [0x47] 255).ready ∧ memRead 255 (running [0x47] 255) = .ok 0x47 ∧
    (running [0xA2, 9] 254).ready ∧ memRead 254 (running [0xA2, 9] 254) = .ok 0xA2 ∧
    (running [0xA2, 7, 8] 253).ready ∧ memRead 254 (running [0xA2, 7, 8] 253) = .ok 7 ∧
    memRead 255 (running [0xA2, 7, 8] 253) = .ok 8 :=
  ⟨running_ready _ _, by decide, running_ready _ _, rfl, running_ready _ _, rfl, running_ready _ _, rfl, rfl⟩
theorem witness_FaultsArePrecise : (running [0x47, 8] 0).ready ∧
    ∃ t, stepAt wide16 (running [0x47, 8] 0) = .next t ∧ t.engine = .faulted (.invalidRegister 8) :=
  ⟨running_ready _ _, _, rfl, rfl⟩
theorem witness_OnlyRunAndHltWriteTheFlag :
    ∃ t, stepAt wide16 (running [0x01] 255) = .next t ∧ t.running = false := ⟨_, rfl, rfl⟩
theorem witness_EngineTransitions : ∃ t u v, stepAt wide16 (running [0x01] 0) = .next t ∧ t.engine = .halted ∧
    stepAt wide16 (running [0x02] 0) = .next u ∧ u.engine = .running ∧
    stepAt wide16 (running [] 256) = .next v ∧ v.engine = .faulted (.outOfBounds 256) :=
  ⟨_, _, _, rfl, rfl, rfl, rfl, rfl, rfl⟩
theorem witness_StepsOnlyGoForward : ∃ t, stepAt wide16 (running [0x47, 1] 254) = .next t ∧ t.out = [9] := ⟨_, rfl, rfl⟩
theorem running_inv : (running [0x01] 255).Inv where
  memCanonical := by decide
  flag := rfl
  pcBound := by decide
  haltedAtHlt h := absurd h (by decide)
  faultReachable k h := nomatch h
  idleFresh h := absurd h (by decide)
  diagUnknown b h := absurd h (by simp [running, State.placeBytes, State.resetWith])
theorem witness_StepKeepsTheInvariant : (running [0x01] 255).Inv ∧ ∃ t, step (running [0x01] 255) = .next t :=
  ⟨running_inv, _, rfl⟩
theorem witness_StepKeepsValuesNonNegative :
    (State.resetWith #v[8, 9, 0, 0, 0, 0, 0, 1]).nonNegative ∧
    ∃ t, stepAt wide16 (State.resetWith #v[8, 9, 0, 0, 0, 0, 0, 1]) = .next t :=
  ⟨⟨by decide, by simp [State.resetWith]⟩, _, rfl⟩
theorem witness_StepKeepsRegistersInWidth :
    (State.resetWith #v[8, 9, 0, 0, 0, 0, 0, 65535]).regsFit wide16.regWidth ∧
    ∃ t, stepAt wide16 (State.resetWith #v[8, 9, 0, 0, 0, 0, 0, 65535]) = .next t :=
  ⟨by unfold State.regsFit; decide, _, rfl⟩
theorem witness_EveryRunEnds : State.reset.engine = .idle ∧
    ({ running [] 0 with engine := .halted } : State).engine = .halted := ⟨rfl, rfl⟩
theorem witness_RunIsItsSteps : ∃ s t : State, s.engine = .halted ∧ run s = .next t ∧ t.pc = 255 :=
  ⟨{ running [0x01] 255 with engine := .halted }, _, rfl, rfl, rfl⟩
theorem witness_ReachingHltEndsTheRun : ∃ s u : State, s.engine = .idle ∧ stepN 1 s = .next u ∧ u.safe = true ∧
    memRead u.pc u = .ok 0x01 := ⟨{ running [0x02, 0x01] 254 with engine := .idle }, _, rfl, rfl, rfl, rfl⟩
theorem halted_inv : ({ running [0x01] 255 with engine := .halted, running := false } : State).Inv where
  memCanonical := by decide
  flag := rfl
  pcBound := by decide
  haltedAtHlt _ := by decide
  faultReachable k h := nomatch h
  idleFresh h := nomatch h
  diagUnknown b h := absurd h (by simp [running, State.placeBytes, State.resetWith])

theorem witness_RunAgainAfterHalt : ∃ s : State, s.Inv ∧ s.engine = .halted := ⟨_, halted_inv, rfl⟩
theorem witness_RunIsRefusedElsewhere : (running [] 0).engine = .running ∧
    (raise .divideByZero State.reset).engine = .faulted .divideByZero := ⟨rfl, rfl⟩
theorem witness_LoadWritesFromAddressZero : State.reset.mem.wf ∧ State.reset.engine = .idle ∧
    (List.replicate 256 (7 : Byte)).length ≤ 256 ∧ 256 < (List.replicate 257 (7 : Byte)).length ∧
    (running [] 0).engine ≠ .idle :=
  ⟨by decide, rfl, by rw [List.length_replicate], by rw [List.length_replicate]; omega, by decide⟩
theorem witness_LoaderIgnoresSkippedLines :
    ["#".toList, "00000001".toList, []].filter (fun l => !skippedLine l) =
      ["00000001".toList].filter (fun l => !skippedLine l) := by decide
theorem witness_PlacedWordRunsNext : State.reset.mem.wf ∧ decodeTableWord 24 0x0100A2 = some (.mul 0 1) ∧
    (running [] 256).mem.wf := by decide
theorem witness_ConstructionFitsTheRegisterWidth : (∀ (i : Nat) (h : i < 8),
    regNorm (.bits 8) (#v[8, 9, 0, 0, 0, 0, 0, 255] : Vector Value 8)[i] =
      (#v[8, 9, 0, 0, 0, 0, 0, 255] : Vector Value 8)[i]) ∧ (State.resetAt (.bits 8) regs).reg[7] = 253 :=
  ⟨by decide, by simp [State.resetAt, State.resetWith, regs, regNorm]⟩
theorem test_placed_word_runs_after_reset :
    (nextOf (step (State.reset.withFetchWord 24 0x080082))).map (fun t => (t.reg[0], t.pc, t.engine)) =
      some (8, 3, .running) := by decide
theorem test_placed_word_runs_past_the_end :
    (nextOf (step ((running [] 256).withFetchWord 8 0x01))).map (fun t => t.engine) = some .halted := by decide

end Sys2Proof.Tests
end

section
/-! SUPPORT. What an instruction does, as one equation per case of its register bytes, and which registers it reads
and writes (10_state.md R15). -/

namespace Sys2Proof.Machine

theorem execAt_ldi_of_lt {r : Byte} (h : r.toNat < 8) (w : Config.RegWidth) (v : Byte) (s : State) :
    execAt w (.ldi r v) s = .next (advance 3 { s with reg := s.reg.set r.toNat (regNorm w (zext v)) h }) := by
  rcases ldiAt_cases w r v s with ⟨_, eq⟩ | ⟨ge, _⟩
  · exact eq
  · omega

theorem execAt_ldi_of_ge {r : Byte} (h : 8 ≤ r.toNat) (w : Config.RegWidth) (v : Byte) (s : State) :
    execAt w (.ldi r v) s = .next (raise (.invalidRegister r.toNat) s) := by
  rcases ldiAt_cases w r v s with ⟨lt, _⟩ | ⟨_, eq⟩
  · omega
  · exact eq

theorem execAt_prn_of_lt {r : Byte} (h : r.toNat < 8) (w : Config.RegWidth) (s : State) :
    execAt w (.prn r) s = .next (advance 2 (emit (s.reg[r.toNat]'h) s)) := by
  rcases execPrn_cases r s with ⟨_, eq⟩ | ⟨ge, _⟩
  · exact eq
  · omega

theorem execAt_prn_of_ge {r : Byte} (h : 8 ≤ r.toNat) (w : Config.RegWidth) (s : State) :
    execAt w (.prn r) s = .next (raise (.invalidRegister r.toNat) s) := by
  rcases execPrn_cases r s with ⟨lt, _⟩ | ⟨_, eq⟩
  · omega
  · exact eq

theorem execAt_mul_of_lt {a b : Byte} (ha : a.toNat < 8) (hb : b.toNat < 8) (w : Config.RegWidth) (s : State) :
    execAt w (.mul a b) s = .next (advance 3
      { s with reg := s.reg.set a.toNat (regNorm w (s.reg[a.toNat]'ha * s.reg[b.toNat]'hb)) ha }) := by
  rcases mulAt_cases w a b s with ⟨_, _, eq⟩ | ⟨ge, _⟩ | ⟨_, ge, _⟩
  · exact eq
  · omega
  · omega

theorem execAt_mul_of_first_ge {a : Byte} (ha : 8 ≤ a.toNat) (w : Config.RegWidth) (b : Byte) (s : State) :
    execAt w (.mul a b) s = .next (raise (.invalidRegister a.toNat) s) := by
  rcases mulAt_cases w a b s with ⟨lt, _, _⟩ | ⟨_, eq⟩ | ⟨lt, _, _⟩
  · omega
  · exact eq
  · omega

theorem execAt_mul_of_second_ge {a b : Byte} (ha : a.toNat < 8) (hb : 8 ≤ b.toNat) (w : Config.RegWidth) (s : State) :
    execAt w (.mul a b) s = .next (raise (.invalidRegister b.toNat) s) := by
  rcases mulAt_cases w a b s with ⟨_, lt, _⟩ | ⟨ge, _⟩ | ⟨_, _, eq⟩
  · omega
  · omega
  · exact eq

@[simp] theorem execAt_hlt (w : Config.RegWidth) (s : State) : execAt w .hlt s = .next (setRunning false s) := rfl

@[simp] theorem execAt_unknown (w : Config.RegWidth) (b : Byte) (s : State) :
    execAt w (.unknown b) s = .next (advance 1 (report b s)) := rfl

end Sys2Proof.Machine

namespace Sys2Proof

/-- The instruction writes register `j` where it completes: LDI its register, MUL its first (R15). -/
def Instr.writesReg : Instr → Nat → Prop
  | .ldi r _, j => j = r.toNat
  | .prn _, _ => False
  | .mul a _, j => j = a.toNat
  | .hlt, _ => False
  | .unknown _, _ => False

/-- The instruction reads register `j` where it completes: PRN its register, MUL both (R15). -/
def Instr.readsReg : Instr → Nat → Prop
  | .ldi _ _, _ => False
  | .prn r, j => j = r.toNat
  | .mul a b, j => j = a.toNat ∨ j = b.toNat
  | .hlt, _ => False
  | .unknown _, _ => False

theorem Instr.writesReg_iff (i : Instr) (j : Nat) :
    i.writesReg j ↔ (∃ r v, i = .ldi r v ∧ j = r.toNat) ∨ (∃ a b, i = .mul a b ∧ j = a.toNat) := by
  cases i <;> simp [Instr.writesReg]

theorem Instr.readsReg_iff (i : Instr) (j : Nat) :
    i.readsReg j ↔ (∃ r, i = .prn r ∧ j = r.toNat) ∨ (∃ a b, i = .mul a b ∧ (j = a.toNat ∨ j = b.toNat)) := by
  cases i <;> simp [Instr.readsReg]

end Sys2Proof

namespace Sys2Proof.Machine

/-- A register that an instruction does not write is as before, a fatal error included. -/
theorem execAt_reg_of_not_writesReg {w : Config.RegWidth} {i : Instr} {s t : State} (ht : execAt w i s = .next t)
    {j : Nat} (hj : j < 8) (hw : ¬ i.writesReg j) : t.reg[j] = s.reg[j] := by
  obtain ⟨u, hu, h⟩ := execAt_cases w i s
  cases hu.symm.trans ht
  rcases h with ⟨-, n, -, -, rfl⟩ | ⟨-, h⟩
  · rfl
  · rcases h with ⟨r, v, hr, rfl, rfl⟩ | ⟨r, hr, rfl, rfl⟩ | ⟨a, b, ha, hb, rfl, rfl⟩ | ⟨rfl, rfl⟩ | ⟨b, rfl, rfl⟩
    · exact Vector.getElem_set_ne hr hj (Ne.symm hw)
    · rfl
    · exact Vector.getElem_set_ne ha hj (Ne.symm hw)
    · rfl
    · rfl

/-- NONINTERFERENCE: on another register file that agrees on the registers the instruction reads, its next state differs
in the register file alone, and the register it writes holds the same value. -/
theorem execAt_of_agree_on_readsReg {w : Config.RegWidth} {i : Instr} {s t : State} {other : Vector Value 8}
    (ht : execAt w i s = .next t) (agree : ∀ (j : Nat) (hj : j < 8), i.readsReg j → other[j] = s.reg[j]) :
    ∃ t', execAt w i { s with reg := other } = .next t' ∧ t' = { t with reg := t'.reg } ∧
      ∀ (j : Nat) (hj : j < 8), i.writesReg j → t'.reg[j] = t.reg[j] := by
  cases i with
  | ldi r v =>
    rcases Nat.lt_or_ge r.toNat 8 with hr | hr
    · cases (execAt_ldi_of_lt hr w v s).symm.trans ht
      refine ⟨_, execAt_ldi_of_lt hr w v _, rfl, ?_⟩
      rintro j hj rfl
      simp
    · cases (execAt_ldi_of_ge hr w v s).symm.trans ht
      refine ⟨_, execAt_ldi_of_ge hr w v _, rfl, ?_⟩
      rintro j hj rfl
      omega
  | prn r =>
    rcases Nat.lt_or_ge r.toNat 8 with hr | hr
    · cases (execAt_prn_of_lt hr w s).symm.trans ht
      have same : other[r.toNat] = s.reg[r.toNat] := agree _ hr rfl
      exact ⟨_, execAt_prn_of_lt hr w _, by simp only [same]; rfl, fun _ _ => False.elim⟩
    · cases (execAt_prn_of_ge hr w s).symm.trans ht
      exact ⟨_, execAt_prn_of_ge hr w _, rfl, fun _ _ => False.elim⟩
  | mul a b =>
    rcases Nat.lt_or_ge a.toNat 8 with ha | ha
    · have sameA : other[a.toNat] = s.reg[a.toNat] := agree _ ha (.inl rfl)
      rcases Nat.lt_or_ge b.toNat 8 with hb | hb
      · have sameB : other[b.toNat] = s.reg[b.toNat] := agree _ hb (.inr rfl)
        cases (execAt_mul_of_lt ha hb w s).symm.trans ht
        refine ⟨_, execAt_mul_of_lt ha hb w _, rfl, ?_⟩
        rintro j hj rfl
        simp [sameA, sameB]
      · cases (execAt_mul_of_second_ge ha hb w s).symm.trans ht
        refine ⟨_, execAt_mul_of_second_ge ha hb w _, rfl, ?_⟩
        rintro j hj rfl
        exact sameA
    · cases (execAt_mul_of_first_ge ha w b s).symm.trans ht
      refine ⟨_, execAt_mul_of_first_ge ha w b _, rfl, ?_⟩
      rintro j hj rfl
      omega
  | hlt =>
    cases (execAt_hlt w s).symm.trans ht
    exact ⟨_, execAt_hlt w _, rfl, fun _ _ => False.elim⟩
  | unknown b =>
    cases (execAt_unknown w b s).symm.trans ht
    exact ⟨_, execAt_unknown w b _, rfl, fun _ _ => False.elim⟩

/-- Settles O24: the frame of the register file, and the noninterference of the registers an instruction does not
read. -/
theorem registersAnInstructionTouches : Obligations.RegistersAnInstructionTouches := by
  unfold Obligations.RegistersAnInstructionTouches
  refine ⟨fun w i s t ht j hj hldi hmul => execAt_reg_of_not_writesReg ht hj ?_,
    fun w i s t other ht hprn hmul => ?_⟩
  · rw [Instr.writesReg_iff]
    rintro (⟨r, v, hi, h⟩ | ⟨a, b, hi, h⟩)
    · exact hldi r v hi h
    · exact hmul a b hi h
  · have agree : ∀ (j : Nat) (hj : j < 8), i.readsReg j → other[j] = s.reg[j] := by
      intro j hj hread
      rcases (Instr.readsReg_iff i j).mp hread with ⟨r, hi, rfl⟩ | ⟨a, b, hi, h⟩
      · exact hprn _ hj (by simpa using hi)
      · exact hmul a b hi j hj h
    obtain ⟨t', ht', frame, written⟩ := execAt_of_agree_on_readsReg ht agree
    refine ⟨t', ht', frame, fun j hj => ?_⟩
    split
    next h => exact written j hj ((Instr.writesReg_iff i j).mpr h)
    next h => exact execAt_reg_of_not_writesReg ht' hj (mt (Instr.writesReg_iff i j).mp h)

end Sys2Proof.Machine
end

section
/-! SUPPORT. Who writes the running flag (10_state.md R18). -/

namespace Sys2Proof.Machine

theorem execAt_running {w : Config.RegWidth} {i : Instr} {s t : State} (ht : execAt w i s = .next t) :
    t.running = if i = .hlt then false else s.running := by
  obtain ⟨u, hu, h⟩ := execAt_cases w i s
  cases hu.symm.trans ht
  rcases h with ⟨hl, n, -, -, rfl⟩ | ⟨-, h⟩
  · have hi : i ≠ .hlt := by rintro rfl; simp [Instr.regsLegal] at hl
    simp [hi]
  · rcases h with ⟨r, v, hr, rfl, rfl⟩ | ⟨r, hr, rfl, rfl⟩ | ⟨a, b, ha, hb, rfl, rfl⟩ | ⟨rfl, rfl⟩ | ⟨b, rfl, rfl⟩ <;>
      simp

/-- A pass of the loop that ends with the flag false began with it false, or fetched HLT. -/
theorem fetchInstr_eq_hlt_of_pass_clears_running {p : Config.Params} {b t : State} (hb : b.running = true)
    (h : closeLoop (loopPass p.opcMul (execAt p.regWidth) b) = .next t) (ht : t.running = false) :
    fetchInstr p.opcMul b = .ok .hlt := by
  cases hf : fetchInstr p.opcMul b with
  | error k =>
    rw [loopPass_of_error hf] at h
    cases h
    simp [hb] at ht
  | ok i =>
    obtain ⟨u, hu, -⟩ := execAt_cases p.regWidth i b
    rw [loopPass_of_fetch hf, hu] at h
    cases h
    have hrun : u.running = if i = .hlt then false else b.running := execAt_running hu
    by_cases hi : i = .hlt
    · rw [hi]
    · simp [hrun, hi, hb] at ht

/-- Settles O41: `execAt_running` for the instructions, and the cases of a step. -/
theorem onlyRunAndHltWriteTheFlag : Obligations.OnlyRunAndHltWriteTheFlag := by
  unfold Obligations.OnlyRunAndHltWriteTheFlag
  refine ⟨fun w i s t => execAt_running, raise_running, enterRun_running, fun p s t hstep ht => ?_⟩
  rcases stepAt_cases p s with ⟨k, -, hfault⟩ | ⟨he, hr, -⟩ | ⟨b, -, ⟨-, hb⟩, hfetch, hpass⟩
  · simp [hfault] at hstep
  · exact .inl ⟨he, hr⟩
  · rw [hpass] at hstep
    exact .inr (hfetch ▸ fetchInstr_eq_hlt_of_pass_clears_running hb hstep ht)

end Sys2Proof.Machine
end

section
/-! SUPPORT. The exact failure of the container operations (20_memory.md R32 to R34). -/

namespace Sys2Proof.Machine

theorem memRead_eq_error_iff {a : Nat} {s : State} {k : FatalKind} :
    memRead a s = .error k ↔ 256 ≤ a ∧ k = .outOfBounds a := by
  rcases Nat.lt_or_ge a 256 with h | h
  · simp [memRead_of_lt h, h]
  · simp [memRead_of_ge h, h, eq_comm]

theorem memWrite_eq_error_iff {a : Nat} {v : Int} {s : State} {k : FatalKind} :
    memWrite a v s = .error k ↔ 256 ≤ a ∧ k = .outOfBounds a := by
  rcases Nat.lt_or_ge a 256 with h | h
  · simp [memWrite_of_lt h, h]
  · simp [memWrite_of_ge h, h, eq_comm]

theorem readReg_eq_error_iff {i : Nat} {s : State} {k : FatalKind} :
    readReg i s = .error k ↔ 8 ≤ i ∧ k = .invalidRegister i := by
  rcases Nat.lt_or_ge i 8 with h | h
  · simp [readReg_of_lt h, h]
  · simp [readReg_of_ge h, h, eq_comm]

theorem writeReg_eq_error_iff {w : Config.RegWidth} {i : Nat} {v : Value} {s : State} {k : FatalKind} :
    writeReg w i v s = .error k ↔ 8 ≤ i ∧ k = .invalidRegister i := by
  rcases Nat.lt_or_ge i 8 with h | h
  · simp [writeReg_of_lt h, h]
  · simp [writeReg_of_ge h, h, eq_comm]

/-- Settles O3: the two answers of a read. -/
theorem memReadContract : Obligations.MemReadContract := by
  unfold Obligations.MemReadContract
  exact fun a s => ⟨fun h => memRead_of_lt h s, fun h => memRead_of_ge h s⟩

/-- Settles O5: each operation's exact failure, and the error taken in the old state. -/
theorem containersFailOutsideTheirRange : Obligations.ContainersFailOutsideTheirRange := by
  unfold Obligations.ContainersFailOutsideTheirRange
  refine fun s => ⟨fun a k => ⟨memRead_eq_error_iff, fun v => memWrite_eq_error_iff⟩,
    fun i k => ⟨readReg_eq_error_iff, fun w v => writeReg_eq_error_iff⟩, ?_⟩
  rintro _ k rfl
  exact attempt_error s k

end Sys2Proof.Machine
end

section
/-! SUPPORT. What the Loader makes of one line, and of a text without its comment and blank lines (20_memory.md R45). -/

namespace Sys2Proof.Machine

theorem loaderBytes_cons_of_skipped {l : List Char} (h : skippedLine l = true) (ls : List (List Char)) :
    loaderBytes (l :: ls) = loaderBytes ls := if_pos h

theorem loaderBytes_cons_of_kept {l : List Char} (h : skippedLine l = false) (ls : List (List Char)) :
    loaderBytes (l :: ls) = (lineByte l).bind fun b => (loaderBytes ls).map (b :: ·) := by
  cases hl : lineByte l <;> cases hls : loaderBytes ls <;> simp [loaderBytes, h, hl, hls]

theorem loaderBytes_filter_kept (ls : List (List Char)) :
    loaderBytes (ls.filter fun l => !skippedLine l) = loaderBytes ls := by
  induction ls with
  | nil => rfl
  | cons l ls ih =>
    cases h : skippedLine l with
    | true => simp [h, ih, loaderBytes_cons_of_skipped h]
    | false => simp [h, ih, loaderBytes_cons_of_kept h]

theorem length_of_loaderBytes {ls : List (List Char)} {bs : List Byte} (hbs : loaderBytes ls = some bs) :
    bs.length = (ls.filter fun l => !skippedLine l).length := by
  induction ls generalizing bs with
  | nil => cases hbs; rfl
  | cons l ls ih =>
    cases h : skippedLine l with
    | true =>
      rw [loaderBytes_cons_of_skipped h] at hbs
      simpa [h] using ih hbs
    | false =>
      rw [loaderBytes_cons_of_kept h] at hbs
      obtain ⟨b, -, hb⟩ := Option.bind_eq_some_iff.1 hbs
      obtain ⟨bs', hbs', rfl⟩ := Option.map_eq_some_iff.1 hb
      simp [h, ih hbs']

/-- Settles O53: what is loaded is a function of the kept lines alone, one byte for each. -/
theorem loaderIgnoresSkippedLines : Obligations.LoaderIgnoresSkippedLines := by
  unfold Obligations.LoaderIgnoresSkippedLines
  intro ls ls' hkept
  refine ⟨?_, fun bs => length_of_loaderBytes⟩
  calc loaderBytes ls
      = loaderBytes (ls.filter fun l => !skippedLine l) := (loaderBytes_filter_kept ls).symm
    _ = loaderBytes (ls'.filter fun l => !skippedLine l) := congrArg loaderBytes hkept
    _ = loaderBytes ls' := loaderBytes_filter_kept ls'

end Sys2Proof.Machine
end

section
/-! SUPPORT. What an instruction does to the pc (40_execution_cycle.md R76) and to the engine state. -/

namespace Sys2Proof.Machine

theorem execAt_engine_of_regsLegal {w : Config.RegWidth} {i : Instr} {s t : State} (ht : execAt w i s = .next t)
    (hl : i.regsLegal = true) : t.engine = s.engine := by
  obtain ⟨u, hu, h⟩ := execAt_cases w i s
  cases hu.symm.trans ht
  rcases h with ⟨hi, -⟩ | ⟨-, h⟩
  · simp [hl] at hi
  · rcases h with ⟨r, v, hr, -, rfl⟩ | ⟨r, hr, -, rfl⟩ | ⟨a, b, ha, hb, -, rfl⟩ | ⟨-, rfl⟩ | ⟨b, -, rfl⟩ <;> rfl

/-- An instruction that completes moves the pc past its own bytes, but for HLT. -/
theorem execAt_pc_of_regsLegal {w : Config.RegWidth} {i : Instr} {s t : State} (ht : execAt w i s = .next t)
    (hl : i.regsLegal = true) : t.pc = if i = .hlt then s.pc else s.pc + i.length := by
  obtain ⟨u, hu, h⟩ := execAt_cases w i s
  cases hu.symm.trans ht
  rcases h with ⟨hi, -⟩ | ⟨-, h⟩
  · simp [hl] at hi
  · rcases h with ⟨r, v, hr, rfl, rfl⟩ | ⟨r, hr, rfl, rfl⟩ | ⟨a, b, ha, hb, rfl, rfl⟩ | ⟨rfl, rfl⟩ | ⟨b, rfl, rfl⟩ <;>
      rfl

/-- A register byte above 7 leaves the pc at the opcode byte of its instruction (R131). -/
theorem execAt_pc_of_not_regsLegal {w : Config.RegWidth} {i : Instr} {s t : State} (ht : execAt w i s = .next t)
    (hl : i.regsLegal = false) : t.pc = s.pc := by
  obtain ⟨u, hu, h⟩ := execAt_cases w i s
  cases hu.symm.trans ht
  rcases h with ⟨-, n, -, -, rfl⟩ | ⟨hi, -⟩
  · rfl
  · simp [hl] at hi

/-- Settles O23: an instruction that completes does not change the engine state, so a fatal error is the other case. -/
theorem pcUpdate : Obligations.PcUpdate := by
  unfold Obligations.PcUpdate
  refine fun w i s t ht => ⟨fun hl => ?_, fun k hk hs => ?_, fun k => raise_pc k s⟩
  · have hpc := execAt_pc_of_regsLegal ht hl
    refine ⟨?_, ?_, ?_, ?_, ?_, fun hi => ?_⟩
    · rintro r v rfl; exact hpc
    · rintro r rfl; exact hpc
    · rintro a b rfl; exact hpc
    · rintro b rfl; exact hpc
    · rintro rfl; exact hpc
    · rw [hpc, if_neg hi, Instr.length, Nat.add_assoc]
  · cases hl : i.regsLegal with
    | true => exact absurd ((execAt_engine_of_regsLegal ht hl).symm.trans hk) hs
    | false => exact execAt_pc_of_not_regsLegal ht hl

end Sys2Proof.Machine
end

section
/-! SUPPORT. The decoder as an equivalence: which opcode bytes each kind stands for (40_execution_cycle.md R73). -/

namespace Sys2Proof

/-- `op` is an opcode byte of the kind, with `OPC_MUL` the byte `opc` (R73). -/
def Kind.hasOpcode (opc op : Byte) : Kind → Prop
  | .ldi => op = Machine.opcLdi
  | .prn => op = Machine.opcPrn
  | .mul => op = opc
  | .hlt => op = Machine.opcHlt
  | .unknown => Machine.isOpcode opc op = false

theorem isOpcode_eq_false_iff (opc op : Byte) : Machine.isOpcode opc op = false ↔
    op ≠ Machine.opcLdi ∧ op ≠ Machine.opcPrn ∧ op ≠ opc ∧ op ≠ Machine.opcHlt := by
  simp [Machine.isOpcode, and_assoc]

theorem decodeKind_hasOpcode (opc op : Byte) : (decodeKind opc op).hasOpcode opc op := by
  unfold decodeKind
  split_ifs with ldi prn mul hlt
  · exact ldi
  · exact prn
  · exact mul
  · exact hlt
  · exact (isOpcode_eq_false_iff opc op).mpr ⟨ldi, prn, mul, hlt⟩

theorem decodeKind_eq_iff {opc : Byte} (legal : Machine.opcMulLegal opc = true) (op : Byte) (k : Kind) :
    decodeKind opc op = k ↔ k.hasOpcode opc op := by
  constructor
  · rintro rfl
    exact decodeKind_hasOpcode opc op
  · intro h
    cases k with
    | ldi => exact h ▸ decodeKind_ldi opc
    | prn => exact h ▸ decodeKind_prn opc
    | mul =>
      obtain rfl : op = opc := h
      exact decodeKind_mul legal
    | hlt => exact h ▸ decodeKind_hlt legal
    | unknown => exact decodeKind_unknown h

theorem kindAluOp_eq_mul_iff (k : Kind) : Machine.kindAluOp k = some .mul ↔ k = .mul := by
  cases k <;> simp [Machine.kindAluOp]

/-- Settles O12: `decodeKind_eq_iff` at each of the five kinds. -/
theorem decoderNamesTheKind : Obligations.DecoderNamesTheKind := by
  unfold Obligations.DecoderNamesTheKind
  refine ⟨fun opc op legal => ?_, rfl, rfl, rfl, rfl, rfl, kindAluOp_eq_mul_iff⟩
  have kind := decodeKind_eq_iff legal op
  exact ⟨kind .ldi, kind .prn, kind .mul, kind .hlt, (kind .unknown).trans (isOpcode_eq_false_iff opc op)⟩

end Sys2Proof
end

section
/-! SUPPORT. A step that fetches LDI (41_ldi.md). -/

namespace Sys2Proof

theorem readInstr_ldi {ε : Type} {opc r v : Byte} {rd : Nat → Except ε Byte} (h0 : rd 0 = .ok Machine.opcLdi)
    (h1 : rd 1 = .ok r) (h2 : rd 2 = .ok v) : readInstr opc rd = .ok (.ldi r v) := by
  simp [readInstr, h0, decodeKind_ldi, h1, h2, bind, Except.bind, pure, Except.pure]

end Sys2Proof

namespace Sys2Proof.Machine

theorem fetchInstr_ldi {opc r v : Byte} {s : State} (hop : memRead s.pc s = .ok opcLdi)
    (hr : memRead (s.pc + 1) s = .ok r) (hv : memRead (s.pc + 2) s = .ok v) : fetchInstr opc s = .ok (.ldi r v) :=
  readInstr_ldi hop hr hv

/-- A step whose pass leaves the running flag true is the instruction it fetched: the loop test changes nothing. -/
theorem stepAt_eq_of_execAt {p : Config.Params} {s t : State} {i : Instr} (hs : s.ready)
    (hf : fetchInstr p.opcMul s = .ok i) (ht : execAt p.regWidth i s = .next t) (hrun : t.running = true) :
    stepAt p s = .next t := by
  obtain ⟨running, flag⟩ := hs
  calc stepAt p s
      = closeLoop (loopPass p.opcMul (execAt p.regWidth) s) := cycle_of_running _ _ running flag
    _ = closeLoop (.next t) := by rw [loopPass_of_fetch hf, ht]
    _ = .next t := by rw [closeLoop_next, loopExit_of_running hrun]

/-- A read of a register depends on that register alone, an index outside the Register File included. -/
theorem readReg_congr {s t : State} {j : Nat} (h : ∀ hj : j < 8, t.reg[j] = s.reg[j]) :
    readReg j t = readReg j s := by
  rcases Nat.lt_or_ge j 8 with hj | hj
  · rw [readReg_of_lt hj, readReg_of_lt hj, h hj]
  · rw [readReg_of_ge hj, readReg_of_ge hj]

/-- Settles O35: the step is LDI's own effect, and a byte is its own norm at every legal width. -/
theorem ldiStepSetsItsRegister : Obligations.LdiStepSetsItsRegister := by
  unfold Obligations.LdiStepSetsItsRegister
  intro p s r v hw hs _ hop hr hv hlt
  have exec := execAt_ldi_of_lt hlt p.regWidth v s
  refine ⟨_, stepAt_eq_of_execAt hs (fetchInstr_ldi hop hr hv) exec hs.2, ?_, fun j hj => ?_, rfl, hs, rfl⟩
  · rw [readReg_of_lt hlt, advance_reg, Vector.getElem_set_self, regNorm_zext _ hw]
    rfl
  · exact readReg_congr fun h8 => execAt_reg_of_not_writesReg exec h8 hj

end Sys2Proof.Machine
end

section
/-! SUPPORT. What LDI stores and what PRN prints, and the line of output it makes (41_ldi.md, 42_prn.md). -/

namespace Sys2Proof.Machine

/-- LDI stores its byte unreduced at every legal width, and prints nothing. -/
theorem execAt_ldi_stores {w : Config.RegWidth} (hw : regWidthLegal w = true) {r : Byte} (hr : r.toNat < 8) (v : Byte)
    (s : State) : ∃ t, execAt w (.ldi r v) s = .next t ∧ t.reg[r.toNat] = zext v ∧ t.out = s.out := by
  refine ⟨_, execAt_ldi_of_lt hr w v s, ?_, rfl⟩
  rw [advance_reg, Vector.getElem_set_self, regNorm_zext w hw]

theorem execAt_prn_appends (w : Config.RegWidth) {r : Byte} (hr : r.toNat < 8) (s : State) :
    ∃ t, execAt w (.prn r) s = .next t ∧ t.out = s.out ++ [s.reg[r.toNat]] :=
  ⟨_, execAt_prn_of_lt hr w s, rfl⟩

theorem outLines_of_out_append {s t : State} {v : Value} (h : t.out = s.out ++ [v]) :
    outLines t = outLines s ++ [dec v] := by
  simp [outLines, h]

/-- Settles O26: PRN appends what its register holds, and LDI left the byte there. -/
theorem ldiThenPrnPrintsTheImmediate : Obligations.LdiThenPrnPrintsTheImmediate := by
  unfold Obligations.LdiThenPrnPrintsTheImmediate
  intro w r v s hw hr
  obtain ⟨t, ldi, stored, silent⟩ := execAt_ldi_stores hw hr v s
  obtain ⟨u, prn, appended⟩ := execAt_prn_appends w hr t
  have printed : u.out = s.out ++ [zext v] := by rw [appended, stored, silent]
  exact ⟨t, u, ldi, prn, printed, outLines_of_out_append printed⟩

end Sys2Proof.Machine
end

section
/-! SUPPORT. What MUL stores, and when a product of bytes is stored unreduced (43_mul_alu.md). -/

namespace Sys2Proof.Machine

theorem execAt_mul_stores (w : Config.RegWidth) {a b : Byte} (ha : a.toNat < 8) (hb : b.toNat < 8) (s : State) :
    ∃ t, execAt w (.mul a b) s = .next t ∧ t.reg[a.toNat] = regNorm w (s.reg[a.toNat] * s.reg[b.toNat]) ∧
      t.out = s.out := by
  refine ⟨_, execAt_mul_of_lt ha hb w s, ?_, rfl⟩
  rw [advance_reg, Vector.getElem_set_self]

/-- A natural number is its own norm at width `n` exactly when it has `n` bits. -/
theorem regNorm_bits_natCast_eq_self_iff (n k : Nat) : regNorm (.bits n) (k : Int) = k ↔ k < 2 ^ n := by
  have norm : regNorm (.bits n) (k : Int) = ((k % 2 ^ n : Nat) : Int) := by simp [regNorm]
  rw [norm, Int.natCast_inj, Nat.mod_eq_iff_lt (Nat.two_pow_pos n).ne']

/-- Settles O27: the two LDI leave `a` and `b` in registers 0 and 1, MUL stores the norm of their product, and PRN
appends it; the appended value is the product where the norm changes nothing. -/
theorem ldiLdiMulPrnPrintsTheProduct : Obligations.LdiLdiMulPrnPrintsTheProduct := by
  unfold Obligations.LdiLdiMulPrnPrintsTheProduct
  intro w a b s hw
  have h0 : (0 : Byte).toNat < 8 := by decide
  have h1 : (1 : Byte).toNat < 8 := by decide
  obtain ⟨s1, ldi0, holds0, silent1⟩ := execAt_ldi_stores hw h0 a s
  obtain ⟨s2, ldi1, holds1, silent2⟩ := execAt_ldi_stores hw h1 b s1
  have kept0 : s2.reg[(0 : Byte).toNat] = s1.reg[(0 : Byte).toNat] :=
    execAt_reg_of_not_writesReg ldi1 h0 (by simp [Instr.writesReg])
  obtain ⟨s3, mul, product, silent3⟩ := execAt_mul_stores w h0 h1 s2
  obtain ⟨s4, prn, appended⟩ := execAt_prn_appends w h0 s3
  have printed : s4.out = s.out ++ [regNorm w (a.toNat * b.toNat : Int)] := by
    rw [appended, product, kept0, holds0, holds1, silent3, silent2, silent1, zext, zext]
  refine ⟨s1, s2, s3, s4, ldi0, ldi1, mul, prn, printed, ?_, ?_⟩
  · rintro rfl
    rw [printed, regNorm_inf]
  · rintro n rfl
    rw [printed, List.append_right_inj, List.singleton_inj, ← Nat.cast_mul, regNorm_bits_natCast_eq_self_iff]

end Sys2Proof.Machine
end

section
/-! SUPPORT. A step that fetches HLT, and one that fetches a byte of no opcode (44_hlt_unknown.md). -/

namespace Sys2Proof

theorem readInstr_hlt {ε : Type} {opc : Byte} {rd : Nat → Except ε Byte} (legal : Machine.opcMulLegal opc = true)
    (h0 : rd 0 = .ok Machine.opcHlt) : readInstr opc rd = .ok .hlt := by
  simp [readInstr, h0, decodeKind_hlt legal, bind, Except.bind, pure, Except.pure]

theorem readInstr_unknown {ε : Type} {opc b : Byte} {rd : Nat → Except ε Byte} (hb : Machine.isOpcode opc b = false)
    (h0 : rd 0 = .ok b) : readInstr opc rd = .ok (.unknown b) := by
  simp [readInstr, h0, decodeKind_unknown hb, bind, Except.bind, pure, Except.pure]

end Sys2Proof

namespace Sys2Proof.Machine

theorem fetchInstr_hlt {opc : Byte} {s : State} (legal : opcMulLegal opc = true)
    (hop : memRead s.pc s = .ok opcHlt) : fetchInstr opc s = .ok .hlt :=
  readInstr_hlt legal hop

theorem fetchInstr_unknown {opc b : Byte} {s : State} (hb : isOpcode opc b = false) (hop : memRead s.pc s = .ok b) :
    fetchInstr opc s = .ok (.unknown b) :=
  readInstr_unknown hb hop

/-- A step whose pass clears the running flag and keeps the engine running halts: the loop test sees the flag. -/
theorem stepAt_halts_of_execAt {p : Config.Params} {s t : State} {i : Instr} (hs : s.ready)
    (hf : fetchInstr p.opcMul s = .ok i) (ht : execAt p.regWidth i s = .next t) (hengine : t.engine = .running)
    (hrun : t.running = false) : stepAt p s = .next { t with engine := .halted } := by
  obtain ⟨running, flag⟩ := hs
  calc stepAt p s
      = closeLoop (loopPass p.opcMul (execAt p.regWidth) s) := cycle_of_running _ _ running flag
    _ = closeLoop (.next t) := by rw [loopPass_of_fetch hf, ht]
    _ = .next { t with engine := .halted } := by rw [closeLoop_next, loopExit_of_stopped hengine hrun]

/-- Settles O36: HLT clears the flag alone, and the loop test halts the engine. -/
theorem hltStepHalts : Obligations.HltStepHalts := by
  unfold Obligations.HltStepHalts
  intro p s legal hs hop
  exact stepAt_halts_of_execAt hs (fetchInstr_hlt legal hop) (execAt_hlt p.regWidth s) hs.1 rfl

/-- Settles O37: a byte unlike the four constants decodes to the unknown instruction, which leaves the flag true, so
the step is its own effect. -/
theorem unknownStepSkipsOneByte : Obligations.UnknownStepSkipsOneByte := by
  unfold Obligations.UnknownStepSkipsOneByte
  intro p s b hs hop ldi prn mul hlt
  have noOpcode : isOpcode p.opcMul b = false := (isOpcode_eq_false_iff p.opcMul b).mpr ⟨ldi, prn, mul, hlt⟩
  exact stepAt_eq_of_execAt hs (fetchInstr_unknown noOpcode hop) (execAt_unknown p.regWidth b s) hs.2

/-- Settles O38: the step of the unknown byte leaves a ready state with the memory as it was and `pc` at the HLT, whose
step halts. -/
theorem unknownThenHltHalts : Obligations.UnknownThenHltHalts := by
  unfold Obligations.UnknownThenHltHalts
  intro p s b legal hs hop ldi prn mul hlt hopNext
  have skip := unknownStepSkipsOneByte p s b hs hop ldi prn mul hlt
  have halt := hltStepHalts p { s with diag := s.diag ++ [.unknownOpcode b], pc := s.pc + 1 } legal hs hopNext
  exact ⟨_, _, skip, halt, rfl, rfl, rfl, rfl, rfl, rfl, rfl⟩

end Sys2Proof.Machine
end

section
/-! SUPPORT. The decoder against the encoder (30_encoding.md): what a successful reading means, byte by byte, and where
a list of bytes ends too early. -/

namespace Sys2Proof

theorem readInstr_prn {ε : Type} {opc r : Byte} {rd : Nat → Except ε Byte} (h0 : rd 0 = .ok Machine.opcPrn)
    (h1 : rd 1 = .ok r) : readInstr opc rd = .ok (.prn r) := by
  simp [readInstr, h0, decodeKind_prn, h1, bind, Except.bind, pure, Except.pure]

theorem readInstr_mul {ε : Type} {opc a b : Byte} {rd : Nat → Except ε Byte} (legal : Machine.opcMulLegal opc = true)
    (h0 : rd 0 = .ok opc) (h1 : rd 1 = .ok a) (h2 : rd 2 = .ok b) : readInstr opc rd = .ok (.mul a b) := by
  simp [readInstr, h0, decodeKind_mul legal, h1, h2, bind, Except.bind, pure, Except.pure]

/-- The reader gives the bytes of the instruction's encoding, at their offsets. -/
def Instr.readsAs {ε : Type} (opc : Byte) (i : Instr) (rd : Nat → Except ε Byte) : Prop :=
  ∀ (k : Nat) (h : k < (encodeAt opc i).length), rd k = .ok (encodeAt opc i)[k]

@[simp] theorem length_encodeAt (opc : Byte) (i : Instr) : (encodeAt opc i).length = i.length := by
  cases i <;> rfl

theorem readInstr_of_readsAs {ε : Type} {opc : Byte} {rd : Nat → Except ε Byte} {i : Instr}
    (legal : Machine.opcMulLegal opc = true) (hw : i.wfAt opc = true) (h : i.readsAs opc rd) :
    readInstr opc rd = .ok i := by
  cases i with
  | ldi r v => exact readInstr_ldi (h 0 (by simp [encodeAt])) (h 1 (by simp [encodeAt])) (h 2 (by simp [encodeAt]))
  | prn r => exact readInstr_prn (h 0 (by simp [encodeAt])) (h 1 (by simp [encodeAt]))
  | mul a b =>
    exact readInstr_mul legal (h 0 (by simp [encodeAt])) (h 1 (by simp [encodeAt])) (h 2 (by simp [encodeAt]))
  | hlt => exact readInstr_hlt legal (h 0 (by simp [encodeAt]))
  | unknown b => exact readInstr_unknown (by simpa [Instr.wfAt] using hw) (h 0 (by simp [encodeAt]))

/-- What the decoder answers has its kind from the opcode byte and its operands from the bytes after it. -/
theorem readsAs_of_readInstr {ε : Type} {opc : Byte} {rd : Nat → Except ε Byte} {i : Instr}
    (h : readInstr opc rd = .ok i) : i.wfAt opc = true ∧ i.readsAs opc rd := by
  rcases readInstr_cases opc rd with ⟨e, -, he⟩ | ⟨op, h0, h'⟩
  · cases he.symm.trans h
  have hop := decodeKind_hasOpcode opc op
  rcases h' with ⟨hk, hi⟩ | ⟨hk, hi⟩ | ⟨e, -, -, hi⟩ | ⟨x, h1, ⟨hk, hi⟩ | ⟨e, -, -, hi⟩ | ⟨y, h2, ⟨hk, hi⟩ | ⟨hk, hi⟩⟩⟩ <;>
    cases hi.symm.trans h
  · obtain rfl : op = Machine.opcHlt := by rwa [hk] at hop
    exact ⟨rfl, fun | 0, _ => h0⟩
  · have noOpcode : Machine.isOpcode opc op = false := by rwa [hk] at hop
    exact ⟨by simp [Instr.wfAt, noOpcode], fun | 0, _ => h0⟩
  · obtain rfl : op = Machine.opcPrn := by rwa [hk] at hop
    exact ⟨rfl, fun | 0, _ => h0 | 1, _ => h1⟩
  · obtain rfl : op = Machine.opcLdi := by rwa [hk] at hop
    exact ⟨rfl, fun | 0, _ => h0 | 1, _ => h1 | 2, _ => h2⟩
  · obtain rfl : op = opc := by rwa [hk] at hop
    exact ⟨rfl, fun | 0, _ => h0 | 1, _ => h1 | 2, _ => h2⟩

theorem byteOf_eq_ok_iff {bs : List Byte} {k : Nat} {b : Byte} : byteOf bs k = .ok b ↔ bs[k]? = some b := by
  cases h : bs[k]? <;> simp [byteOf, h]

theorem readsAs_byteOf_iff {opc : Byte} {i : Instr} {bs : List Byte} :
    i.readsAs opc (byteOf bs) ↔ encodeAt opc i <+: bs := by
  simp [Instr.readsAs, byteOf_eq_ok_iff, List.prefix_iff_getElem?]

theorem decodeAt_eq_ok_iff {opc : Byte} {bs rest : List Byte} {i : Instr} : decodeAt opc bs = .ok (i, rest) ↔
    readInstr opc (byteOf bs) = .ok i ∧ bs.drop i.length = rest := by
  cases h : readInstr opc (byteOf bs) with
  | ok j =>
    simp only [decodeAt, h, Except.ok.injEq, Prod.mk.injEq]
    constructor <;> rintro ⟨rfl, h⟩ <;> exact ⟨rfl, h⟩
  | error e => simp [decodeAt, h]

theorem decodeAt_eq_error_iff {opc : Byte} {bs : List Byte} {e : DecodeError} :
    decodeAt opc bs = .error e ↔ readInstr opc (byteOf bs) = .error e := by
  cases h : readInstr opc (byteOf bs) <;> simp [decodeAt, h]

/-- Settles O14: the bytes of an encoding read as the instruction, whatever follows them. -/
theorem decodeOfEncode : Obligations.DecodeOfEncode := by
  unfold Obligations.DecodeOfEncode
  intro opc i rest legal hw
  have reads : i.readsAs opc (byteOf (encodeAt opc i ++ rest)) := readsAs_byteOf_iff.mpr (List.prefix_append _ _)
  exact decodeAt_eq_ok_iff.mpr ⟨readInstr_of_readsAs legal hw reads, List.drop_left' (length_encodeAt opc i)⟩

/-- Settles O15: the bytes read are the encoding, so the list begins with it. -/
theorem encodeOfDecode : Obligations.EncodeOfDecode := by
  unfold Obligations.EncodeOfDecode
  intro opc bs i rest _ h
  obtain ⟨hi, hrest⟩ := decodeAt_eq_ok_iff.mp h
  obtain ⟨hw, reads⟩ := readsAs_of_readInstr hi
  have isPrefix : encodeAt opc i <+: bs := readsAs_byteOf_iff.mp reads
  refine ⟨hw, ?_⟩
  rw [← hrest, ← length_encodeAt opc i]
  exact (List.prefix_iff_eq_append.mp isPrefix).symm

/-- Where the opcode byte is there, reading fails exactly if an operand byte of its kind is missing. -/
theorem readInstr_byteOf_cons_eq_error_iff {opc op : Byte} {tl : List Byte} {e : DecodeError} :
    readInstr opc (byteOf (op :: tl)) = .error e ↔
      tl.length < (decodeKind opc op).operandCount ∧ e = .noOperand (tl.length + 1) := by
  have missing (k : Nat) : DecodeError.noOperand k = e ↔ e = .noOperand k := eq_comm
  -- no operand byte, one, and two or more: each against what the kind needs
  rcases tl with _ | ⟨x, _ | ⟨y, tl⟩⟩ <;> cases hk : decodeKind opc op <;>
    simp [readInstr, hk, Kind.operandCount, missing, bind, Except.bind, pure, Except.pure]

/-- Settles O16: the first missing byte is the opcode byte of the empty list, or the operand byte where the list
ends. -/
theorem decoderFailsOnlyWhereBytesEnd : Obligations.DecoderFailsOnlyWhereBytesEnd := by
  unfold Obligations.DecoderFailsOnlyWhereBytesEnd
  intro opc bs e
  rw [decodeAt_eq_error_iff]
  cases bs with
  | nil => simp [readInstr, bind, Except.bind, eq_comm]
  | cons op tl => simp [readInstr_byteOf_cons_eq_error_iff]

/-- Settles O13: each word's bytes, read by the decoder. -/
theorem writtenOutWordsDecode : Obligations.WrittenOutWordsDecode := by
  unfold Obligations.WrittenOutWordsDecode
  decide

end Sys2Proof
end

section
/-! SUPPORT. Construction, the Memory and the register file: a read after a write, and the one canonical form
(10_state.md, 20_memory.md). -/

namespace Sys2Proof.Machine

/-- Settles O1: the fields of the constructed state. -/
theorem constructionLeavesThisState : Obligations.ConstructionLeavesThisState := by
  unfold Obligations.ConstructionLeavesThisState
  refine ⟨rfl, ?_⟩
  rintro init s rfl
  exact ⟨fun a ha => memRead_of_lt ha _, fun i hi => readReg_of_lt hi _, rfl, rfl, rfl, rfl, rfl⟩

theorem resetWith_inv (init : Vector Value 8) : (State.resetWith init).Inv where
  memCanonical := Memory.wf_nil
  flag := rfl
  pcBound := Nat.zero_le 256
  haltedAtHlt h := nomatch h
  faultReachable _ h := nomatch h
  idleFresh _ := ⟨rfl, rfl, rfl⟩
  diagUnknown _ h := nomatch h

/-- Settles O2: `State.reset` is one of the constructed states. -/
theorem constructionMeetsTheInvariant : Obligations.ConstructionMeetsTheInvariant := by
  unfold Obligations.ConstructionMeetsTheInvariant
  exact ⟨resetWith_inv resetRegs, resetWith_inv⟩

theorem map_regNorm_of_fit {w : Config.RegWidth} {regs : Vector Value 8}
    (fit : ∀ (i : Nat) (h : i < 8), regNorm w regs[i] = regs[i]) : regs.map (regNorm w) = regs :=
  Vector.ext fun i hi => by rw [Vector.getElem_map, fit i hi]

/-- Settles O56: every register is a norm, and the norm changes no value of the width. -/
theorem constructionFitsTheRegisterWidth : Obligations.ConstructionFitsTheRegisterWidth := by
  unfold Obligations.ConstructionFitsTheRegisterWidth
  intro w init
  refine ⟨fun i hi => ?_, resetWith_inv _, fun fit => ?_, ?_⟩
  · simp only [State.resetAt, State.resetWith, Vector.getElem_map, regNorm_idem]
  · rw [State.resetAt, map_regNorm_of_fit fit]
  · rw [State.resetAt, map_regNorm_of_fit fun i _ => regNorm_inf _, State.reset]

theorem toNat_ofInt_eight (v : Int) : ((BitVec.ofInt 8 v).toNat : Int) = v % 256 := by
  rw [BitVec.toNat_ofInt, Int.toNat_of_nonneg (Int.emod_nonneg v (by decide))]
  rfl

/-- Settles O4: `Memory.get_put` for the cells, and `Memory.put_wf` for the form. -/
theorem memWriteThenRead : Obligations.MemWriteThenRead := by
  unfold Obligations.MemWriteThenRead
  refine fun a v s hm => ⟨fun ha => ?_, fun ha => memWrite_of_ge ha v s⟩
  have get (x : Nat) := Memory.get_put s.mem a (BitVec.ofInt 8 v) x hm.1
  refine ⟨_, _, memWrite_of_lt ha v s, toNat_ofInt_eight v, ?_, fun x hx => ?_, rfl, Memory.put_wf _ _ _ ha hm⟩
  · rw [memRead_of_lt ha, get, if_pos rfl]
  · simp only [memRead, get, if_neg hx]

theorem Memory.wf_cons_iff {c : Host.Cell} {m : Memory} :
    Memory.wf (c :: m) ↔ (∀ d ∈ m, c.1 < d.1) ∧ c.1 < 256 ∧ c.2 ≠ unlisted ∧ m.wf := by
  simp only [Memory.wf, List.pairwise_cons, List.forall_mem_cons]
  tauto

@[simp] theorem Memory.get_cons_self (c : Host.Cell) (m : Memory) : Memory.get (c :: m) c.1 = c.2 := if_pos rfl

theorem Memory.get_cons_of_ne {c : Host.Cell} {a : Nat} (h : c.1 ≠ a) (m : Memory) :
    Memory.get (c :: m) a = m.get a := if_neg h

/-- A canonical memory reads as unlisted below its first cell. -/
theorem Memory.get_of_lt_head {c : Host.Cell} {m : Memory} (hm : Memory.wf (c :: m)) {a : Nat} (h : a < c.1) :
    Memory.get (c :: m) a = unlisted := by
  refine Memory.get_of_absent _ a fun d hd => ?_
  rcases List.mem_cons.mp hd with rfl | hd
  · exact h.ne'
  · exact (h.trans ((Memory.wf_cons_iff.mp hm).1 d hd)).ne'

/-- The first cell of a canonical memory is no further than that of another that reads alike. -/
theorem Memory.head_le_of_reads_alike {c d : Host.Cell} {m n : Memory} (hm : Memory.wf (c :: m))
    (hn : Memory.wf (d :: n)) (alike : ∀ a, a < 256 → Memory.get (c :: m) a = Memory.get (d :: n) a) : d.1 ≤ c.1 := by
  obtain ⟨-, bound, listed, -⟩ := Memory.wf_cons_iff.mp hm
  refine Nat.le_of_not_lt fun h => listed ?_
  calc c.2 = Memory.get (c :: m) c.1 := (Memory.get_cons_self c m).symm
    _ = Memory.get (d :: n) c.1 := alike _ bound
    _ = unlisted := Memory.get_of_lt_head hn h

/-- No canonical memory with a cell reads as the empty one. -/
theorem Memory.not_reads_empty {c : Host.Cell} {m : Memory} (hm : Memory.wf (c :: m)) :
    ¬ ∀ a, a < 256 → Memory.get (c :: m) a = unlisted := by
  obtain ⟨-, bound, listed, -⟩ := Memory.wf_cons_iff.mp hm
  exact fun h => listed ((Memory.get_cons_self c m).symm.trans (h _ bound))

/-- Canonical memories with the same first address that read alike have tails that read alike. -/
theorem Memory.tails_read_alike {c d : Host.Cell} {m n : Memory} (hm : Memory.wf (c :: m)) (hn : Memory.wf (d :: n))
    (head : c.1 = d.1) (alike : ∀ a, a < 256 → Memory.get (c :: m) a = Memory.get (d :: n) a) :
    ∀ a, a < 256 → m.get a = n.get a := by
  intro a ha
  by_cases h : c.1 = a
  · have absent {e : Host.Cell} {l : Memory} (hl : Memory.wf (e :: l)) (he : e.1 = a) : l.get a = unlisted :=
      Memory.get_of_absent l a fun x hx => he ▸ ((Memory.wf_cons_iff.mp hl).1 x hx).ne'
    rw [absent hm h, absent hn (head ▸ h)]
  · rw [← Memory.get_cons_of_ne h m, ← Memory.get_cons_of_ne (head ▸ h) n]
    exact alike a ha

theorem Memory.eq_of_reads_alike {m n : Memory} (hm : m.wf) (hn : n.wf)
    (alike : ∀ a, a < 256 → m.get a = n.get a) : m = n := by
  induction m generalizing n with
  | nil =>
    cases n with
    | nil => rfl
    | cons d n => exact absurd (fun a ha => (alike a ha).symm) (Memory.not_reads_empty hn)
  | cons c m ih =>
    cases n with
    | nil => exact absurd alike (Memory.not_reads_empty hm)
    | cons d n =>
      have head : c.1 = d.1 := Nat.le_antisymm
        (Memory.head_le_of_reads_alike hn hm fun a ha => (alike a ha).symm) (Memory.head_le_of_reads_alike hm hn alike)
      obtain ⟨-, bound, -, hmTail⟩ := Memory.wf_cons_iff.mp hm
      obtain ⟨-, -, -, hnTail⟩ := Memory.wf_cons_iff.mp hn
      have byte : c.2 = d.2 := by
        calc c.2 = Memory.get (c :: m) c.1 := (Memory.get_cons_self c m).symm
          _ = Memory.get (d :: n) c.1 := alike _ bound
          _ = d.2 := by rw [head, Memory.get_cons_self]
      rw [Prod.ext head byte, ih hmTail hnTail (Memory.tails_read_alike hm hn head alike)]

/-- Settles O6: their first cells are the same cell, and so on along the list. -/
theorem canonicalMemoriesThatReadAlikeAreEqual : Obligations.CanonicalMemoriesThatReadAlikeAreEqual := by
  unfold Obligations.CanonicalMemoriesThatReadAlikeAreEqual
  exact fun m n => Memory.eq_of_reads_alike

/-- Settles O7: the written register holds the norm, and `Vector.set` changes no other. -/
theorem registerWriteThenRead : Obligations.RegisterWriteThenRead := by
  unfold Obligations.RegisterWriteThenRead
  refine fun w i v s => ⟨fun hi => ?_, fun hi => ⟨writeReg_of_ge hi w v s, readReg_of_ge hi s⟩⟩
  refine ⟨_, writeReg_of_lt hi w v s, ?_, fun j hj => readReg_congr fun h8 => ?_, rfl⟩
  · rw [readReg_of_lt hi, Vector.getElem_set_self]
  · exact Vector.getElem_set_ne hi h8 hj.symm

end Sys2Proof.Machine
end

section
/-! SUPPORT. The register width and the alu (00_scope.md R8, 43_mul_alu.md section 2). -/

namespace Sys2Proof.Machine

/-- Settles O8: the library's facts of the remainder by a positive number. -/
theorem normIsTheRemainder : Obligations.NormIsTheRemainder := by
  unfold Obligations.NormIsTheRemainder
  refine ⟨regNorm_inf, fun n v => ?_⟩
  have pos : (0 : Int) < 2 ^ n := by positivity
  exact ⟨Int.emod_nonneg v pos.ne', Int.emod_lt_of_pos v pos, Int.dvd_self_sub_emod, regNorm_idem _ v⟩

/-- Settles O9: with both indices legal, what the alu answers goes to the first register. -/
theorem aluSumDifferenceProduct : Obligations.AluSumDifferenceProduct := by
  unfold Obligations.AluSumDifferenceProduct
  refine ⟨fun va vb => ⟨rfl, rfl, rfl⟩, fun w op a b s v ha hb hv => ?_⟩
  rcases aluOnRegs_cases w op a b s with ⟨_, _, ⟨v', hv', h⟩ | ⟨k, hk, -⟩⟩ | ⟨ge, -⟩ | ⟨-, ge, -⟩
  · cases hv'.symm.trans hv
    exact h
  · cases hk.symm.trans hv
  · omega
  · omega

/-- Settles O10: division is exact where the remainder is 0, which is where the divisor divides. -/
theorem aluDivision : Obligations.AluDivision := by
  unfold Obligations.AluDivision
  refine fun va vb => ⟨rfl, fun nonzero dvd => ⟨va / vb, ?_, Int.ediv_mul_cancel dvd⟩, fun nonzero ndvd => ?_⟩
  · simp [aluApply, nonzero, Int.emod_eq_zero_of_dvd dvd]
  · simp [aluApply, nonzero, mt Int.dvd_of_emod_eq_zero ndvd]

/-- Division never refuses its operation. -/
theorem aluApply_div_ne_unsupported (va vb : Value) (op : AluOp) :
    aluApply .div va vb ≠ .error (.unsupportedOperation op) := by
  unfold aluApply
  split_ifs <;> simp

/-- Settles O11: the five selectors, one by one. -/
theorem aluRefusesOtherOperations : Obligations.AluRefusesOtherOperations := by
  unfold Obligations.AluRefusesOtherOperations
  intro op op' va vb
  cases op with
  | add | sub | mul => simp [aluApply]
  | div => simp [aluApply_div_ne_unsupported]
  | other name => simp [aluApply, eq_comm]

end Sys2Proof.Machine
end

section
/-! SUPPORT. What each instruction answers, at every width (41_ldi.md to 44_hlt_unknown.md, 60_exceptions.md), and its
frame. -/

namespace Sys2Proof.Machine

theorem exec_eq_execAt_inf (i : Instr) (s : State) : exec i s = execAt .inf i s := by
  cases i <;> rfl

/-- Settles O17: LDI's equation at width inf. -/
theorem ldiCompletes : Obligations.LdiCompletes := by
  unfold Obligations.LdiCompletes
  exact fun r v s h => execAt_ldi_of_lt h .inf v s

/-- Settles O18: PRN's equation. -/
theorem prnCompletes : Obligations.PrnCompletes := by
  unfold Obligations.PrnCompletes
  exact fun r s h => execAt_prn_of_lt h .inf s

/-- Settles O19: MUL's equation at width inf. -/
theorem mulCompletes : Obligations.MulCompletes := by
  unfold Obligations.MulCompletes
  exact fun a b s ha hb => execAt_mul_of_lt ha hb .inf s

/-- Settles O20: the equations of HLT and of the unknown byte. -/
theorem hltAndUnknownComplete : Obligations.HltAndUnknownComplete := by
  unfold Obligations.HltAndUnknownComplete
  exact ⟨execAt_hlt .inf, execAt_unknown .inf⟩

/-- Settles O21: the equations of LDI, PRN and MUL where a register byte is illegal. -/
theorem registerByteAboveSevenFaults : Obligations.RegisterByteAboveSevenFaults := by
  unfold Obligations.RegisterByteAboveSevenFaults
  refine fun a b s => ⟨fun ha => ⟨?_, ?_, ?_⟩, fun ha hb => ?_⟩ <;> rw [exec_eq_execAt_inf]
  · exact execAt_ldi_of_ge ha .inf b s
  · exact execAt_prn_of_ge ha .inf s
  · exact execAt_mul_of_first_ge ha .inf b s
  · exact execAt_mul_of_second_ge ha hb .inf s

theorem execAt_of_not_regsLegal {w : Config.RegWidth} {i : Instr} {s t : State} (ht : execAt w i s = .next t)
    (hl : i.regsLegal = false) : ∃ n, t = raise (.invalidRegister n) s ∧ 8 ≤ n ∧ n < 256 := by
  obtain ⟨u, hu, h⟩ := execAt_cases w i s
  cases hu.symm.trans ht
  rcases h with ⟨-, n, h8, h256, rfl⟩ | ⟨hi, -⟩
  · exact ⟨n, rfl, h8, h256⟩
  · simp [hl] at hi

/-- Settles O22: the equations of each instruction, at any width. -/
theorem everyInstructionCompletes : Obligations.EveryInstructionCompletes := by
  unfold Obligations.EveryInstructionCompletes
  refine fun w s => ⟨fun r v => ⟨fun h => ?_, fun h => ?_⟩, fun r => ⟨fun h => ?_, fun h => ?_⟩,
    fun a b => ⟨fun ha hb => ?_, fun ha => ?_, fun ha hb => ?_⟩, ?_, fun b => ?_, fun i => ?_⟩
  · exact execAt_ldi_of_lt h w v s
  · exact execAt_ldi_of_ge h w v s
  · exact execAt_prn_of_lt h w s
  · exact execAt_prn_of_ge h w s
  · exact execAt_mul_of_lt ha hb w s
  · exact execAt_mul_of_first_ge ha w b s
  · exact execAt_mul_of_second_ge ha hb w s
  · exact execAt_hlt w s
  · exact execAt_unknown w b s
  · obtain ⟨t, ht, -⟩ := execAt_cases w i s
    exact ⟨t, ht, execAt_engine_of_regsLegal ht, execAt_of_not_regsLegal ht⟩

section
variable {w : Config.RegWidth} {i : Instr} {s t : State} (ht : execAt w i s = .next t)
include ht

/-- An instruction that completes leaves memory, and each channel it does not write to, as they were. -/
theorem execAt_mem_out_diag :
    t.mem = s.mem ∧ ((∀ r, i ≠ .prn r) → t.out = s.out) ∧ ((∀ b, i ≠ .unknown b) → t.diag = s.diag) := by
  obtain ⟨u, hu, h⟩ := execAt_cases w i s
  cases hu.symm.trans ht
  rcases h with ⟨-, n, -, -, rfl⟩ | ⟨-, h⟩
  · simp
  · rcases h with ⟨r, v, hr, rfl, rfl⟩ | ⟨r, hr, rfl, rfl⟩ | ⟨a, b, ha, hb, rfl, rfl⟩ | ⟨rfl, rfl⟩ | ⟨b, rfl, rfl⟩ <;>
      simp

theorem execAt_engine : t.engine = s.engine ∨ ∃ k, t = raise k s := by
  cases hl : i.regsLegal with
  | true => exact .inl (execAt_engine_of_regsLegal ht hl)
  | false =>
    obtain ⟨n, h, -⟩ := execAt_of_not_regsLegal ht hl
    exact .inr ⟨_, h⟩

theorem execAt_readReg_of_not_writesReg {j : Nat} (hw : ¬ i.writesReg j) : readReg j t = readReg j s :=
  readReg_congr fun hj => execAt_reg_of_not_writesReg ht hj hw

end

/-- Settles O25: the frame, piece of state by piece of state. -/
theorem frameOfEveryInstruction : Obligations.FrameOfEveryInstruction := by
  unfold Obligations.FrameOfEveryInstruction
  intro w i s t ht
  obtain ⟨mem, out, diag⟩ := execAt_mem_out_diag ht
  refine ⟨fun a => by rw [memRead, memRead, mem], mem, fun j hldi hmul => ?_, out, diag, fun hi => ?_,
    execAt_engine ht⟩
  · refine execAt_readReg_of_not_writesReg ht ?_
    rw [Instr.writesReg_iff]
    rintro (⟨r, v, hi, h⟩ | ⟨a, b, hi, h⟩)
    · exact hldi r v hi h
    · exact hmul a b hi h
  · rw [execAt_running ht, if_neg hi]

/-- With an illegal register byte the width does not matter: the error is taken before any value is normalised. -/
theorem execAt_width_irrelevant_of_not_regsLegal {i : Instr} (hl : i.regsLegal = false) (w w' : Config.RegWidth)
    (s : State) : execAt w i s = execAt w' i s := by
  cases i with
  | ldi r v =>
    have hr : 8 ≤ r.toNat := by simpa [Instr.regsLegal] using hl
    rw [execAt_ldi_of_ge hr, execAt_ldi_of_ge hr]
  | mul a b =>
    rcases Nat.lt_or_ge a.toNat 8 with ha | ha
    · have hb : 8 ≤ b.toNat := by simpa [Instr.regsLegal, ha] using hl
      rw [execAt_mul_of_second_ge ha hb, execAt_mul_of_second_ge ha hb]
    · rw [execAt_mul_of_first_ge ha, execAt_mul_of_first_ge ha]
  | prn | hlt | unknown => rfl

theorem execAt_width_irrelevant_of_ne_mul {w : Config.RegWidth} (hw : regWidthLegal w = true) {i : Instr}
    (hi : ∀ a b, i ≠ .mul a b) (s : State) : execAt w i s = execAt .inf i s := by
  cases i with
  | ldi r v =>
    rcases Nat.lt_or_ge r.toNat 8 with hr | hr
    · rw [execAt_ldi_of_lt hr, execAt_ldi_of_lt hr, regNorm_zext w hw, regNorm_inf]
    · rw [execAt_ldi_of_ge hr, execAt_ldi_of_ge hr]
  | mul a b => exact absurd rfl (hi a b)
  | prn | hlt | unknown => rfl

/-- Settles O29: a byte is its own norm at every legal width, and an error comes before any norm. -/
theorem widthMattersForProductsOnly : Obligations.WidthMattersForProductsOnly := by
  unfold Obligations.WidthMattersForProductsOnly
  intro w i s hw
  rw [exec_eq_execAt_inf]
  refine ⟨fun hi => execAt_width_irrelevant_of_ne_mul hw hi s,
    fun hl => execAt_width_irrelevant_of_not_regsLegal hl w .inf s, ?_⟩
  rintro a b ha hb rfl
  exact execAt_mul_of_lt ha hb w s

end Sys2Proof.Machine
end

section
/-! SUPPORT. The decimal string (00_scope.md R8): its digits are digits, read back as the number, and have no leading
zero. -/

namespace Sys2Proof.Machine

theorem digitChar_toNat {d : Nat} (hd : d < 10) : (digitChar d).toNat = 48 + d := by
  interval_cases d <;> rfl

theorem digitChar_isDigit {d : Nat} (hd : d < 10) : '0' ≤ digitChar d ∧ digitChar d ≤ '9' := by
  interval_cases d <;> decide

theorem digitChar_ne_zero {d : Nat} (hd : d < 10) (nonzero : d ≠ 0) : digitChar d ≠ '0' := by
  interval_cases d
  · exact absurd rfl nonzero
  all_goals decide

theorem decDigits_of_lt_ten {n : Nat} (fuel : Nat) (hn : n < 10) : decDigits fuel n = [digitChar n] := by
  cases fuel with
  | zero => rw [decDigits, Nat.mod_eq_of_lt hn]
  | succ fuel => rw [decDigits, if_pos hn]

theorem decDigits_of_ge_ten {n : Nat} (fuel : Nat) (hn : 10 ≤ n) :
    decDigits (fuel + 1) n = decDigits fuel (n / 10) ++ [digitChar (n % 10)] := by
  rw [decDigits, if_neg (by omega)]

/-- The number a list of digits stands for in base 10. -/
def readDecimal (cs : List Char) : Nat := cs.foldl (fun acc c => 10 * acc + (c.toNat - 48)) 0

theorem readDecimal_append_digit (cs : List Char) {d : Nat} (hd : d < 10) :
    readDecimal (cs ++ [digitChar d]) = 10 * readDecimal cs + d := by
  simp [readDecimal, digitChar_toNat hd]

/-- The characters are decimal digits that read back as `n`, and begin with 0 for 0 alone. -/
structure IsDecimalOf (n : Nat) (cs : List Char) : Prop where
  digits : ∀ c ∈ cs, '0' ≤ c ∧ c ≤ '9'
  value : readDecimal cs = n
  noLeadingZero : n ≠ 0 → ∃ c rest, cs = c :: rest ∧ c ≠ '0'

theorem isDecimalOf_digit {n : Nat} (hn : n < 10) : IsDecimalOf n [digitChar n] where
  digits c hc := by rw [List.mem_singleton.mp hc]; exact digitChar_isDigit hn
  value := (readDecimal_append_digit [] hn).trans (by simp [readDecimal])
  noLeadingZero nonzero := ⟨_, _, rfl, digitChar_ne_zero hn nonzero⟩

theorem IsDecimalOf.append_last {n : Nat} {cs : List Char} (h : IsDecimalOf (n / 10) cs) (hn : 10 ≤ n) :
    IsDecimalOf n (cs ++ [digitChar (n % 10)]) where
  digits c hc := by
    rcases List.mem_append.mp hc with init | last
    · exact h.digits c init
    · rw [List.mem_singleton.mp last]
      exact digitChar_isDigit (Nat.mod_lt n (by decide))
  value := by rw [readDecimal_append_digit cs (Nat.mod_lt n (by decide)), h.value, Nat.div_add_mod]
  noLeadingZero _ := by
    obtain ⟨c, rest, rfl, hc⟩ := h.noLeadingZero (by omega)
    exact ⟨c, _, rfl, hc⟩

/-- As much fuel as the number itself is enough for its digits. -/
theorem isDecimalOf_decDigits {fuel n : Nat} (enough : n ≤ fuel) : IsDecimalOf n (decDigits fuel n) := by
  induction fuel generalizing n with
  | zero =>
    have hn : n < 10 := by omega
    exact decDigits_of_lt_ten 0 hn ▸ isDecimalOf_digit hn
  | succ fuel ih =>
    rcases Nat.lt_or_ge n 10 with hn | hn
    · exact decDigits_of_lt_ten _ hn ▸ isDecimalOf_digit hn
    · exact decDigits_of_ge_ten fuel hn ▸ (ih (by omega)).append_last hn

theorem decChars_natCast (n : Nat) : decChars n = decDigits n n := rfl

theorem decChars_of_neg {v : Value} (hv : v < 0) : decChars v = '-' :: decChars (-v) := by
  cases v with
  | ofNat n => exact absurd hv (Int.natCast_nonneg n).not_gt
  | negSucc n => rfl

/-- Settles O28: `isDecimalOf_decDigits` for the digits, and the two constructors of the integers for the sign. -/
theorem decIsTheDecimalString : Obligations.DecIsTheDecimalString := by
  unfold Obligations.DecIsTheDecimalString
  refine ⟨fun n => ?_, fun v => decChars_of_neg, fun v => rfl⟩
  have spec : IsDecimalOf n (decChars n) := decChars_natCast n ▸ isDecimalOf_decDigits le_rfl
  refine ⟨spec.digits, spec.value, ?_, fun nonzero => ?_⟩
  · rintro rfl
    rfl
  · obtain ⟨c, rest, h, hc⟩ := spec.noLeadingZero nonzero
    simp [h, hc]

end Sys2Proof.Machine
end

section
/-! SUPPORT. fetch_unit as the decoder reading the bytes of memory at the pc (40_execution_cycle.md R72 to R74). -/

namespace Sys2Proof

/-- A decoder whose reader's errors are renamed answers the same, its error renamed. -/
theorem readInstr_mapError {ε ε' : Type} (f : ε → ε') (opc : Byte) (rd : Nat → Except ε Byte) :
    readInstr opc (fun k => (rd k).mapError f) = (readInstr opc rd).mapError f := by
  cases h0 : rd 0 with
  | error e => simp [readInstr, h0, Except.mapError, bind, Except.bind]
  | ok op =>
    cases hk : decodeKind opc op <;> cases h1 : rd 1 <;> cases h2 : rd 2 <;>
      simp [readInstr, h0, hk, h1, h2, Except.mapError, bind, Except.bind, pure, Except.pure]

end Sys2Proof

namespace Sys2Proof.Machine

theorem memRead_eq_ok_iff {a : Nat} {s : State} {b : Byte} : memRead a s = .ok b ↔ a < 256 ∧ s.mem.get a = b := by
  rcases Nat.lt_or_ge a 256 with h | h
  · simp [memRead_of_lt h, h]
  · simp [memRead_of_ge h, h]

/-- The fatal error the machine raises where a list of the bytes from address `a` on lacks one. -/
def missingByteFault (a : Nat) : DecodeError → FatalKind
  | .noOpcode => .outOfBounds a
  | .noOperand k => .outOfBounds (a + k)

theorem memRead_eq_byteOf_bytesFrom (a k : Nat) (s : State) :
    memRead (a + k) s = (byteOf (s.mem.bytesFrom a) k).mapError (missingByteFault a) := by
  rw [byteOf_bytesFrom]
  rcases Nat.lt_or_ge (a + k) 256 with h | h
  · simp [memRead_of_lt h, h, Except.mapError]
  · rw [memRead_of_ge h, if_neg (by omega)]
    cases k <;> rfl

theorem fetchInstr_eq_readInstr_bytesFrom (opc : Byte) (s : State) :
    fetchInstr opc s = (readInstr opc (byteOf (s.mem.bytesFrom s.pc))).mapError (missingByteFault s.pc) := by
  rw [← readInstr_mapError, fetchInstr]
  exact congrArg (readInstr opc) (funext fun k => memRead_eq_byteOf_bytesFrom s.pc k s)

theorem Memory.length_bytesFrom (m : Memory) (a : Nat) : (m.bytesFrom a).length = 256 - a := by
  simp [Memory.bytesFrom]

/-- The first byte missing from the end of memory is at 256, or at `a` where that lies further. -/
theorem missingByteFault_of_decodeAt_error {opc : Byte} {m : Memory} {a : Nat} {e : DecodeError}
    (h : decodeAt opc (m.bytesFrom a) = .error e) : missingByteFault a e = .outOfBounds (max a 256) := by
  have len := m.length_bytesFrom a
  rcases (decoderFailsOnlyWhereBytesEnd opc _ e).mp h with ⟨empty, rfl⟩ | ⟨op, tl, cons, -, rfl⟩
  · have : 256 ≤ a := by simp only [empty, List.length_nil] at len; omega
    rw [missingByteFault, max_eq_left this]
  · have : a + (tl.length + 1) = max a 256 := by simp only [cons, List.length_cons] at len; omega
    rw [missingByteFault, this]

theorem fetchInstr_of_decodeAt {opc : Byte} {s : State} {i : Instr} {rest : List Byte}
    (h : decodeAt opc (s.mem.bytesFrom s.pc) = .ok (i, rest)) : fetchInstr opc s = .ok i := by
  rw [fetchInstr_eq_readInstr_bytesFrom, (decodeAt_eq_ok_iff.mp h).1, Except.mapError]

theorem fetchInstr_of_decodeAt_error {opc : Byte} {s : State} {e : DecodeError}
    (h : decodeAt opc (s.mem.bytesFrom s.pc) = .error e) :
    fetchInstr opc s = .error (.outOfBounds (max s.pc 256)) := by
  rw [fetchInstr_eq_readInstr_bytesFrom, decodeAt_eq_error_iff.mp h, Except.mapError,
    missingByteFault_of_decodeAt_error h]

/-- Settles O30: the two readers give the same bytes, and the first missing one is past the end of memory. -/
theorem fetchIsDecodeOfMemory : Obligations.FetchIsDecodeOfMemory := by
  unfold Obligations.FetchIsDecodeOfMemory
  exact fun opc s => ⟨fun i rest => fetchInstr_of_decodeAt, fun e => fetchInstr_of_decodeAt_error⟩

/-- A fetch fails with one error alone. -/
theorem eq_outOfBounds_of_fetchInstr_error {opc : Byte} {s : State} {k : FatalKind}
    (h : fetchInstr opc s = .error k) : k = .outOfBounds (max s.pc 256) := by
  cases hd : decodeAt opc (s.mem.bytesFrom s.pc) with
  | ok r => cases (fetchInstr_of_decodeAt hd).symm.trans h
  | error e => cases (fetchInstr_of_decodeAt_error hd).symm.trans h; rfl

/-- What is fetched lies in memory, its last byte included. -/
theorem pc_add_length_le_of_fetchInstr {opc : Byte} {s : State} {i : Instr} (h : fetchInstr opc s = .ok i) :
    s.pc + i.length ≤ 256 := by
  have pos : 0 < i.length := by simp [Instr.length]
  have last : i.length - 1 < (encodeAt opc i).length := by rw [length_encodeAt]; omega
  have inMemory := (memRead_eq_ok_iff.mp ((readsAs_of_readInstr h).2 _ last)).1
  omega

theorem memRead_pc_of_fetchInstr_hlt {opc : Byte} {s : State} (h : fetchInstr opc s = .ok .hlt) :
    memRead s.pc s = .ok opcHlt :=
  (readsAs_of_readInstr h).2 0 Nat.zero_lt_one

theorem isOpcode_eq_false_of_fetchInstr_unknown {opc b : Byte} {s : State}
    (h : fetchInstr opc s = .ok (.unknown b)) : isOpcode opc b = false := by
  simpa [Instr.wfAt] using (readsAs_of_readInstr h).1

end Sys2Proof.Machine
end

section
/-! SUPPORT. What a step does, by the pass it runs: `stepAt_cases` and `closedPass_cases` as one inductive predicate. -/

namespace Sys2Proof.Machine

/-- `t` is what a pass of the loop and the loop test after it make of the ready state `b`. -/
inductive PassEffect (p : Config.Params) (b : State) : State → Prop
  | fetchError {k : FatalKind} (fetch : fetchInstr p.opcMul b = .error k) : PassEffect p b (raise k b)
  | invalidRegister {i : Instr} {n : Nat} (fetch : fetchInstr p.opcMul b = .ok i) (illegal : i.regsLegal = false)
      (ge : 8 ≤ n) (lt : n < 256) : PassEffect p b (raise (.invalidRegister n) b)
  | ldi {r v : Byte} (fetch : fetchInstr p.opcMul b = .ok (.ldi r v)) (hr : r.toNat < 8) :
      PassEffect p b (advance 3 { b with reg := b.reg.set r.toNat (regNorm p.regWidth (zext v)) hr })
  | prn {r : Byte} (fetch : fetchInstr p.opcMul b = .ok (.prn r)) (hr : r.toNat < 8) :
      PassEffect p b (advance 2 (emit b.reg[r.toNat] b))
  | mul {x y : Byte} (fetch : fetchInstr p.opcMul b = .ok (.mul x y)) (hx : x.toNat < 8) (hy : y.toNat < 8) :
      PassEffect p b (advance 3
        { b with reg := b.reg.set x.toNat (regNorm p.regWidth (b.reg[x.toNat] * b.reg[y.toNat])) hx })
  | hlt (fetch : fetchInstr p.opcMul b = .ok .hlt) : PassEffect p b { b with running := false, engine := .halted }
  | unknown {x : Byte} (fetch : fetchInstr p.opcMul b = .ok (.unknown x)) : PassEffect p b (advance 1 (report x b))

theorem passEffect_of_closedPass (p : Config.Params) {b : State} (hb : b.ready) :
    ∃ t, closeLoop (loopPass p.opcMul (execAt p.regWidth) b) = .next t ∧ PassEffect p b t := by
  obtain ⟨t, ht, h⟩ := closedPass_cases p hb
  refine ⟨t, ht, ?_⟩
  rcases h with ⟨k, hf, rfl⟩ | ⟨i, hf, ⟨hl, n, h8, h256, rfl⟩ | ⟨-, h⟩⟩
  · exact .fetchError hf
  · exact .invalidRegister hf hl h8 h256
  · rcases h with ⟨r, v, hr, rfl, rfl⟩ | ⟨r, hr, rfl, rfl⟩ | ⟨x, y, hx, hy, rfl, rfl⟩ | ⟨rfl, rfl⟩ | ⟨x, rfl, rfl⟩
    · exact .ldi hf hr
    · exact .prn hf hr
    · exact .mul hf hx hy
    · exact .hlt hf
    · exact .unknown hf

/-- Entering the run changes nothing of a state that is in one. -/
theorem enterRun_of_ready {s : State} (hs : s.ready) : enterRun s = s := by
  obtain ⟨engine, flag⟩ := hs
  simp [enterRun, setRunning, ← engine, ← flag]

theorem EntersPass.eq_enterRun {s b : State} (h : EntersPass s b) : b = enterRun s := by
  rcases h with ⟨engine, flag, rfl⟩ | ⟨-, rfl⟩
  · exact (enterRun_of_ready ⟨engine, flag⟩).symm
  · rfl

/-- EVERYTHING A STEP ANSWERS: the bare loop exit, or a pass from the entered run. -/
theorem stepAt_next_cases {p : Config.Params} {s t : State} (h : stepAt p s = .next t) :
    (s.engine = .running ∧ s.running = false ∧ t = { s with engine := .halted }) ∨ PassEffect p (enterRun s) t := by
  rcases stepAt_cases p s with ⟨k, -, hfault⟩ | ⟨he, hr, hexit⟩ | ⟨b, enters, hb, -, hpass⟩
  · cases hfault.symm.trans h
  · cases hexit.symm.trans h
    exact .inl ⟨he, hr, rfl⟩
  · obtain ⟨u, hu, effect⟩ := passEffect_of_closedPass p hb
    cases (hpass.trans hu).symm.trans h
    exact .inr (enters.eq_enterRun ▸ effect)

theorem passEffect_of_stepAt {p : Config.Params} {s t : State} (hs : s.ready) (h : stepAt p s = .next t) :
    PassEffect p s t := by
  rcases stepAt_next_cases h with ⟨-, hr, -⟩ | effect
  · simp [hs.2] at hr
  · rwa [enterRun_of_ready hs] at effect

/-- Settles O34: every case but the `Faulted` engine answers a next state. -/
theorem stepAnswersANextState : Obligations.StepAnswersANextState := by
  unfold Obligations.StepAnswersANextState
  intro p s unfaulted
  rcases stepAt_cases p s with ⟨k, he, -⟩ | ⟨-, -, h⟩ | ⟨b, -, hb, -, hpass⟩
  · exact absurd he (unfaulted k)
  · exact ⟨_, h⟩
  · obtain ⟨t, ht, -⟩ := passEffect_of_closedPass p hb
    exact ⟨t, hpass.trans ht⟩

/-- Settles O42: the pass runs with the flag true, and HLT alone clears it. -/
theorem engineTransitions : Obligations.EngineTransitions := by
  unfold Obligations.EngineTransitions
  intro p s t h
  rcases stepAt_next_cases h with ⟨-, hr, rfl⟩ | effect
  · simp [hr]
  · cases effect <;> simp

/-- Settles O43: the frame of each effect. -/
theorem stepsOnlyGoForward : Obligations.StepsOnlyGoForward := by
  unfold Obligations.StepsOnlyGoForward
  intro p s t h
  rcases stepAt_next_cases h with ⟨-, -, rfl⟩ | effect
  · simp
  · cases effect with
    | fetchError | invalidRegister | ldi | mul | hlt => simp
    | prn fetch hr => exact ⟨rfl, by simp, by simp, .inr ⟨_, _, fetch, readReg_of_lt hr s, rfl⟩, .inl rfl⟩
    | unknown fetch => exact ⟨rfl, by simp, by simp, .inl rfl, .inr ⟨_, fetch, rfl⟩⟩

/-- Settles O40: an effect that is no fatal error leaves the engine out of `Faulted`. -/
theorem faultsArePrecise : Obligations.FaultsArePrecise := by
  unfold Obligations.FaultsArePrecise
  intro p s t k hs h faulted
  cases passEffect_of_stepAt hs h with
  | fetchError fetch =>
    cases faulted
    exact ⟨rfl, .inl fetch⟩
  | invalidRegister fetch illegal ge lt =>
    cases faulted
    exact ⟨rfl, .inr ⟨_, fetch, illegal, _, rfl, ge, lt⟩⟩
  | ldi | prn | mul | hlt | unknown => simp [hs.1] at faulted

end Sys2Proof.Machine
end

section
/-! SUPPORT. What every step keeps: the machine's invariant (`State.Inv`), and the values its registers can hold. -/

namespace Sys2Proof.Machine

/-- In a run the invariant is about memory, the pc and the diagnostics alone. -/
theorem State.Inv.of_ready {t : State} (ht : t.ready) (mem : t.mem.wf) (pc : t.pc ≤ 256)
    (diag : ∀ b, .unknownOpcode b ∈ t.diag → isOpcode opcMul b = false) : t.Inv where
  memCanonical := mem
  flag := by simp [State.flagAgrees, ht.1, ht.2]
  pcBound := pc
  haltedAtHlt h := by simp [ht.1] at h
  faultReachable k h := by simp [ht.1] at h
  idleFresh h := by simp [ht.1] at h
  diagUnknown := diag

theorem State.Inv.enterRun {s : State} (hs : s.Inv) : (enterRun s).Inv :=
  .of_ready ⟨rfl, rfl⟩ hs.memCanonical hs.pcBound hs.diagUnknown

theorem State.Inv.raise {b : State} (hb : b.Inv) (flag : b.running = true) {k : FatalKind} (hk : k.reachable) :
    (raise k b).Inv where
  memCanonical := hb.memCanonical
  flag := flag
  pcBound := hb.pcBound
  haltedAtHlt h := by simp at h
  faultReachable k' h := by cases h; exact hk
  idleFresh h := by simp at h
  diagUnknown := hb.diagUnknown

theorem State.Inv.halt {b : State} (hb : b.Inv) (hlt : memRead b.pc b = .ok opcHlt) :
    State.Inv { b with running := false, engine := .halted } where
  memCanonical := hb.memCanonical
  flag := rfl
  pcBound := hb.pcBound
  haltedAtHlt _ := memRead_eq_ok_iff.mp hlt
  faultReachable k h := by simp at h
  idleFresh h := by simp at h
  diagUnknown := hb.diagUnknown

theorem PassEffect.keeps_inv {b t : State} (effect : PassEffect defaultParams b t) (hready : b.ready) (hb : b.Inv) :
    t.Inv := by
  cases effect with
  | fetchError fetch =>
    obtain rfl := eq_outOfBounds_of_fetchInstr_error fetch
    exact hb.raise hready.2 (max_eq_right hb.pcBound)
  | invalidRegister fetch illegal ge lt => exact hb.raise hready.2 ⟨ge, lt⟩
  | ldi fetch hr => exact .of_ready hready hb.memCanonical (pc_add_length_le_of_fetchInstr fetch) hb.diagUnknown
  | prn fetch hr => exact .of_ready hready hb.memCanonical (pc_add_length_le_of_fetchInstr fetch) hb.diagUnknown
  | mul fetch hx hy => exact .of_ready hready hb.memCanonical (pc_add_length_le_of_fetchInstr fetch) hb.diagUnknown
  | hlt fetch => exact hb.halt (memRead_pc_of_fetchInstr_hlt fetch)
  | @unknown x fetch =>
    refine .of_ready hready hb.memCanonical (pc_add_length_le_of_fetchInstr fetch) fun b' hmem => ?_
    rcases List.mem_append.mp hmem with old | new
    · exact hb.diagUnknown b' old
    · obtain rfl : b' = x := by simpa using new
      exact isOpcode_eq_false_of_fetchInstr_unknown fetch

/-- Settles O44: the flag agrees with the engine, so a step is a pass from the entered run, which meets the invariant
too. -/
theorem stepKeepsTheInvariant : Obligations.StepKeepsTheInvariant := by
  unfold Obligations.StepKeepsTheInvariant
  intro s t hs h
  rcases stepAt_next_cases (p := defaultParams) h with ⟨engine, stopped, -⟩ | effect
  · have flag : s.running = true := by simpa [State.flagAgrees, engine] using hs.flag
    simp [flag] at stopped
  · exact effect.keeps_inv ⟨rfl, rfl⟩ hs.enterRun

/-- What holds of every register and of a value holds of every register after that value is stored in one. -/
theorem forall_getElem_set {P : Value → Prop} {reg : Vector Value 8} {i : Nat} (hi : i < 8) {v : Value}
    (hreg : ∀ (j : Nat) (hj : j < 8), P reg[j]) (hv : P v) (j : Nat) (hj : j < 8) : P (reg.set i v hi)[j] := by
  rw [Vector.getElem_set]
  split
  · exact hv
  · exact hreg j hj

theorem regNorm_nonneg (w : Config.RegWidth) {v : Value} (hv : 0 ≤ v) : 0 ≤ regNorm w v := by
  cases w with
  | inf => exact hv
  | bits n => exact Int.emod_nonneg v (by positivity)

/-- Settles O45: what LDI and MUL store and what PRN appends is not negative. -/
theorem stepKeepsValuesNonNegative : Obligations.StepKeepsValuesNonNegative := by
  unfold Obligations.StepKeepsValuesNonNegative
  rintro p s t ⟨hreg, hout⟩ h
  rcases stepAt_next_cases h with ⟨-, -, rfl⟩ | effect
  · exact ⟨hreg, hout⟩
  · cases effect with
    | fetchError | invalidRegister | hlt | unknown => exact ⟨hreg, hout⟩
    | ldi fetch hr => exact ⟨forall_getElem_set hr hreg (regNorm_nonneg _ (Int.natCast_nonneg _)), hout⟩
    | mul fetch hx hy =>
      exact ⟨forall_getElem_set hx hreg (regNorm_nonneg _ (mul_nonneg (hreg _ hx) (hreg _ hy))), hout⟩
    | prn fetch hr =>
      refine ⟨hreg, fun v hv => ?_⟩
      rcases List.mem_append.mp hv with old | new
      · exact hout v old
      · rw [List.mem_singleton.mp new]
        exact hreg _ hr

/-- Settles O46: what LDI and MUL store is a norm, and a norm is its own norm. -/
theorem stepKeepsRegistersInWidth : Obligations.StepKeepsRegistersInWidth := by
  unfold Obligations.StepKeepsRegistersInWidth
  intro p s t hfit h
  rcases stepAt_next_cases h with ⟨-, -, rfl⟩ | effect
  · exact hfit
  · cases effect with
    | fetchError | invalidRegister | prn | hlt | unknown => exact hfit
    | ldi fetch hr => exact forall_getElem_set (P := fun v => regNorm p.regWidth v = v) hr hfit (regNorm_idem _ _)
    | mul fetch hx hy => exact forall_getElem_set (P := fun v => regNorm p.regWidth v = v) hx hfit (regNorm_idem _ _)

end Sys2Proof.Machine
end

section
/-! SUPPORT. One step: the pass that runs the decoded instruction, or takes the first error in order
(40_execution_cycle.md section 1, 60_exceptions.md section 2). -/

namespace Sys2Proof.Machine

theorem step_eq_of_entersPass {s b : State} {i : Instr} {rest : List Byte} (enters : EntersPass s b)
    (hd : decode (s.mem.bytesFrom s.pc) = .ok (i, rest)) : step s = closeLoop (exec i b) := by
  obtain ⟨hcycle, -, fetch⟩ := cycle_of_entersPass opcMul exec enters
  rw [step, hcycle, loopPass_of_fetch (fetch.trans (fetchInstr_of_decodeAt hd))]

/-- Settles O31: the loop test of the statement is `loopExit`. -/
theorem stepRunsTheDecodedInstruction : Obligations.StepRunsTheDecodedInstruction := by
  unfold Obligations.StepRunsTheDecodedInstruction
  intro s b i rest enters hd
  rw [step_eq_of_entersPass enters hd]
  cases exec i b <;> rfl

/-- Settles O32: the pass raises the fetch's error, and the loop test leaves it alone. -/
theorem stepTakesTheFetchError : Obligations.StepTakesTheFetchError := by
  unfold Obligations.StepTakesTheFetchError
  intro s b e enters hd
  obtain ⟨hcycle, ⟨-, flag⟩, fetch⟩ := cycle_of_entersPass opcMul exec enters
  rw [step, hcycle, loopPass_of_error (fetch.trans (fetchInstr_of_decodeAt_error hd)), closeLoop_next,
    loopExit_of_running (s := raise _ b) flag]
  rfl

/-- Settles O33: the two cases in which a step runs no pass. -/
theorem stepsWithoutAPass : Obligations.StepsWithoutAPass := by
  unfold Obligations.StepsWithoutAPass
  exact fun s => ⟨fun k => cycle_of_faulted opcMul exec, fun he hr => hr ▸ cycle_of_stopped opcMul exec he hr⟩

theorem stepAt_of_fetchInstr_error {p : Config.Params} {s : State} {k : FatalKind} (hs : s.ready)
    (hf : fetchInstr p.opcMul s = .error k) : stepAt p s = .next (raise k s) := by
  obtain ⟨running, flag⟩ := hs
  rw [stepAt, cycle_of_running _ _ running flag, loopPass_of_error hf, closeLoop_next,
    loopExit_of_running (s := raise k s) flag]

theorem decodeKind_of_fetchInstr {opc op : Byte} {s : State} {i : Instr} (legal : opcMulLegal opc = true)
    (hf : fetchInstr opc s = .ok i) (hop : memRead s.pc s = .ok op) : decodeKind opc op = i.kind := by
  obtain ⟨hw, reads⟩ := readsAs_of_readInstr hf
  have first := hop.symm.trans (reads 0 (by simp [Instr.length]))
  cases i with
  | ldi => cases first; exact decodeKind_ldi opc
  | prn => cases first; exact decodeKind_prn opc
  | mul => cases first; exact decodeKind_mul legal
  | hlt => cases first; exact decodeKind_hlt legal
  | unknown => cases first; exact decodeKind_unknown (by simpa [Instr.wfAt, encodeAt] using hw)

/-- An instruction that would run past the end of memory, its opcode byte or an operand, is the error of the fetch. -/
theorem fetchInstr_of_past_end {opc : Byte} {s : State} (legal : opcMulLegal opc = true)
    (past : ∀ op, memRead s.pc s = .ok op → 256 < s.pc + 1 + (decodeKind opc op).operandCount) :
    fetchInstr opc s = .error (.outOfBounds (max s.pc 256)) := by
  cases hf : fetchInstr opc s with
  | ok i =>
    have inMemory := pc_add_length_le_of_fetchInstr hf
    have hop := (readsAs_of_readInstr hf).2 0 (by simp [Instr.length])
    have tooLong := past _ hop
    rw [decodeKind_of_fetchInstr legal hf hop] at tooLong
    rw [Instr.length] at inMemory
    omega
  | error k => rw [eq_outOfBounds_of_fetchInstr_error hf]

theorem stepAt_of_past_end {p : Config.Params} {s : State} (legal : opcMulLegal p.opcMul = true) (hs : s.ready)
    (past : ∀ op, memRead s.pc s = .ok op → 256 < s.pc + 1 + (decodeKind p.opcMul op).operandCount) :
    stepAt p s = .next (raise (.outOfBounds (max s.pc 256)) s) :=
  stepAt_of_fetchInstr_error hs (fetchInstr_of_past_end legal past)

theorem fetchInstr_prn {opc r : Byte} {s : State} (hop : memRead s.pc s = .ok opcPrn)
    (hr : memRead (s.pc + 1) s = .ok r) : fetchInstr opc s = .ok (.prn r) :=
  readInstr_prn hop hr

theorem fetchInstr_mul {opc a b : Byte} {s : State} (legal : opcMulLegal opc = true)
    (hop : memRead s.pc s = .ok opc) (ha : memRead (s.pc + 1) s = .ok a) (hb : memRead (s.pc + 2) s = .ok b) :
    fetchInstr opc s = .ok (.mul a b) :=
  readInstr_mul legal hop ha hb

theorem opcMulLegal_iff {opc : Byte} : opcMulLegal opc = true ↔ opc ≠ opcLdi ∧ opc ≠ opcPrn ∧ opc ≠ opcHlt := by
  simp [opcMulLegal, and_assoc]

/-- LDI, PRN and MUL have an operand, and all but PRN have two. -/
theorem operandCount_of_register_opcode {opc op : Byte} (legal : opcMulLegal opc = true)
    (hop : op = opcLdi ∨ op = opcPrn ∨ op = opc) :
    1 ≤ (decodeKind opc op).operandCount ∧ (op ≠ opcPrn → (decodeKind opc op).operandCount = 2) := by
  rcases hop with rfl | rfl | rfl
  · simp [decodeKind_ldi, Kind.operandCount]
  · simp [decodeKind_prn, Kind.operandCount]
  · simp [decodeKind_mul legal, Kind.operandCount]

/-- Settles O39: the fetch's error where the instruction does not fit into memory; otherwise the error of its register
bytes, in operand order. -/
theorem firstErrorInOrderIsReported : Obligations.FirstErrorInOrderIsReported := by
  unfold Obligations.FirstErrorInOrderIsReported
  refine fun p s legal hs => ⟨fun beyond => ?_, fun op hop hkind => ⟨fun at255 => ?_, fun at254 two => ?_, ?_⟩⟩
  · have faults := stepAt_of_past_end legal hs fun op _ => by omega
    rwa [max_eq_left beyond] at faults
  · have count := (operandCount_of_register_opcode legal hkind).1
    have faults := stepAt_of_past_end legal hs fun op' h => by cases hop.symm.trans h; omega
    rwa [show max s.pc 256 = s.pc + 1 by omega] at faults
  · have count := (operandCount_of_register_opcode legal hkind).2 two
    have faults := stepAt_of_past_end legal hs fun op' h => by cases hop.symm.trans h; omega
    rwa [show max s.pc 256 = s.pc + 2 by omega] at faults
  · intro a b ha hb
    obtain ⟨neLdi, nePrn, -⟩ := opcMulLegal_iff.mp legal
    have faults {i : Instr} {k : FatalKind} (hf : fetchInstr p.opcMul s = .ok i)
        (he : execAt p.regWidth i s = .next (raise k s)) : stepAt p s = .next (raise k s) :=
      stepAt_eq_of_execAt hs hf he hs.2
    rcases hkind with rfl | rfl | rfl
    · have fetch : fetchInstr p.opcMul s = .ok (.ldi a b) := fetchInstr_ldi hop ha (hb (by decide))
      exact ⟨fun ge => faults fetch (execAt_ldi_of_ge ge _ b s), fun _ isMul => absurd isMul.symm neLdi⟩
    · have fetch : fetchInstr p.opcMul s = .ok (.prn a) := fetchInstr_prn hop ha
      exact ⟨fun ge => faults fetch (execAt_prn_of_ge ge _ s), fun _ isMul => absurd isMul.symm nePrn⟩
    · have fetch : fetchInstr p.opcMul s = .ok (.mul a b) := fetchInstr_mul legal hop ha (hb nePrn)
      exact ⟨fun ge => faults fetch (execAt_mul_of_first_ge ge _ b s),
        fun lt _ ge => faults fetch (execAt_mul_of_second_ge lt ge _ s)⟩

end Sys2Proof.Machine
end

section
/-! SUPPORT. The whole run: the loop of `run()` step by step, its end, and what it is to reach a HLT
(40_execution_cycle.md sections 1 and 4, 44_hlt_unknown.md section 1). -/

namespace Sys2Proof.Machine

/-- Settles O54: the meanings without a width are the ones at width inf. -/
theorem defaultParametersGiveTheMachine : Obligations.DefaultParametersGiveTheMachine := by
  unfold Obligations.DefaultParametersGiveTheMachine
  exact ⟨rfl, fun s => ⟨rfl, rfl, fun i => exec_eq_execAt_inf i s⟩⟩

/-- Settles O51: `run()` looks at the engine first. -/
theorem runIsRefusedElsewhere : Obligations.RunIsRefusedElsewhere := by
  unfold Obligations.RunIsRefusedElsewhere
  exact fun s => ⟨fun h => by simp [run, hostRun, h], fun k h => by simp [run, hostRun, h]⟩

/-- The loop of `run()` for at most `fuel` passes, and what `run()` does after it. -/
def loopThenExit (p : Config.Params) (fuel : Nat) (s : State) : Result :=
  closeLoop (loopFor p.opcMul (execAt p.regWidth) fuel s)

theorem runAt_eq_loopThenExit (p : Config.Params) {s : State} (h : s.engine = .idle ∨ s.engine = .halted) :
    runAt p s = loopThenExit p 257 (enterRun s) := by
  rcases h with h | h <;> simp [runAt, hostRun, h, loopThenExit]

theorem run_eq_loopThenExit {s : State} (h : s.engine = .idle ∨ s.engine = .halted) :
    run s = loopThenExit defaultParams 257 (enterRun s) :=
  runAt_eq_loopThenExit defaultParams h

theorem stepAt_enterRun (p : Config.Params) {s : State} (h : s.engine = .idle ∨ s.engine = .halted) :
    stepAt p (enterRun s) = stepAt p s :=
  (cycle_of_running _ _ rfl rfl).trans (cycle_of_not_running _ _ h).symm

theorem enterRun_ready (s : State) : (enterRun s).ready := ⟨rfl, rfl⟩

theorem loopThenExit_zero (p : Config.Params) {s : State} (hs : s.ready) : loopThenExit p 0 s = .next s := by
  rw [loopThenExit, loopFor, closeLoop_next, loopExit_of_running hs.2]

theorem loopFor_of_not_ready (opc : Byte) (ex : Instr → State → Result) (fuel : Nat) {s : State} (hs : ¬ s.ready) :
    loopFor opc ex fuel s = .next s := by
  cases fuel with
  | zero => rfl
  | succ fuel => exact if_neg fun h => hs ⟨h.2, h.1⟩

theorem loopExit_of_not_ready {s : State} (hs : ¬ s.ready) : ¬ (loopExit s).ready := by
  unfold loopExit
  split
  · simp [State.ready]
  · exact hs

/-- THE LOOP BY ONE STEP: from a ready state it takes the step, and goes on where that leaves a ready state. -/
theorem loopThenExit_succ {p : Config.Params} {s t : State} (fuel : Nat) (hs : s.ready) (h : stepAt p s = .next t) :
    (t.ready ∧ loopThenExit p (fuel + 1) s = loopThenExit p fuel t) ∨
    (¬ t.ready ∧ loopThenExit p (fuel + 1) s = .next t) := by
  have closed : closeLoop (loopPass p.opcMul (execAt p.regWidth) s) = .next t :=
    (cycle_of_running _ _ hs.1 hs.2).symm.trans h
  cases hpass : loopPass p.opcMul (execAt p.regWidth) s with
  | fault | refused => simp [hpass, closeLoop] at closed
  | next u =>
    have exits : loopExit u = t := by simpa [hpass] using closed
    have unfolds : loopThenExit p (fuel + 1) s = loopThenExit p fuel u := by
      rw [loopThenExit, loopFor, if_pos ⟨hs.2, hs.1⟩, hpass, loopThenExit]
    by_cases hu : u.ready
    · obtain rfl : u = t := (loopExit_of_running hu.2).symm.trans exits
      exact .inl ⟨hu, unfolds⟩
    · refine .inr ⟨exits ▸ loopExit_of_not_ready hu, ?_⟩
      rw [unfolds, loopThenExit, loopFor_of_not_ready _ _ _ hu, closeLoop_next, exits]

theorem exists_stepAt_of_ready (p : Config.Params) {s : State} (hs : s.ready) : ∃ t, stepAt p s = .next t :=
  stepAnswersANextState p s fun k h => by simp [hs.1] at h

/-- A step that leaves the run going on has fetched from memory and moved the pc forward (R79). -/
theorem stepAt_pc_lt_of_ready {p : Config.Params} {s t : State} (hs : s.ready) (h : stepAt p s = .next t)
    (ht : t.ready) : s.pc < 256 ∧ s.pc < t.pc := by
  have inMemory {i : Instr} (fetch : fetchInstr p.opcMul s = .ok i) : s.pc < 256 := by
    have le := pc_add_length_le_of_fetchInstr fetch
    rw [Instr.length] at le
    omega
  cases passEffect_of_stepAt hs h with
  | fetchError | invalidRegister | hlt => simp [State.ready] at ht
  | ldi fetch | prn fetch | mul fetch | unknown fetch => exact ⟨inMemory fetch, by simp⟩

/-- After a step the run is over or goes on. -/
theorem runOver_of_stepAt_of_not_ready {p : Config.Params} {s t : State} (h : stepAt p s = .next t)
    (ht : ¬ t.ready) : t.runOver = true := by
  obtain ⟨notIdle, -, running, -⟩ := engineTransitions p s t h
  rcases he : t.engine with _ | _ | _ | k
  · exact absurd he notIdle
  · exact absurd ⟨he, running he⟩ ht
  · simp [State.runOver, he]
  · simp [State.runOver, he]

/-- With a pass for every address from the pc to 256, and one more, the loop ends by itself. -/
theorem loopThenExit_ends (p : Config.Params) {fuel : Nat} {s : State} (hs : s.ready) (pos : 0 < fuel)
    (enough : 257 ≤ s.pc + fuel) : ∃ t, loopThenExit p fuel s = .next t ∧ t.runOver = true := by
  induction fuel generalizing s with
  | zero => omega
  | succ fuel ih =>
    obtain ⟨t, h⟩ := exists_stepAt_of_ready p hs
    rcases loopThenExit_succ fuel hs h with ⟨ht, goesOn⟩ | ⟨ht, ends⟩
    · obtain ⟨inMemory, forward⟩ := stepAt_pc_lt_of_ready hs h ht
      rw [goesOn]
      exact ih ht (by omega) (by omega)
    · exact ⟨t, ends, runOver_of_stepAt_of_not_ready h ht⟩

/-- Settles O47: 257 passes are enough from any pc. -/
theorem everyRunEnds : Obligations.EveryRunEnds := by
  unfold Obligations.EveryRunEnds
  intro p s h
  rw [runAt_eq_loopThenExit p h]
  exact loopThenExit_ends p (enterRun_ready s) (by decide) (Nat.le_add_left _ _)

theorem stepN_succ_of_step {s t : State} (n : Nat) (h : step s = .next t) : stepN (n + 1) s = stepN n t := by
  rw [stepN, h]

/-- The loop of a ready state is its steps, each but the last of which leaves a ready state. -/
theorem loopThenExit_eq_stepN {fuel : Nat} {s t : State} (hs : s.ready)
    (h : loopThenExit defaultParams fuel s = .next t) :
    ∃ n ≤ fuel, (0 < fuel → 0 < n) ∧ stepN n s = .next t ∧ ∀ m < n, ∃ u, stepN m s = .next u ∧ u.ready := by
  induction fuel generalizing s with
  | zero =>
    rw [loopThenExit_zero _ hs] at h
    exact ⟨0, le_rfl, id, h, fun m hm => absurd hm (Nat.not_lt_zero m)⟩
  | succ fuel ih =>
    obtain ⟨u, hu⟩ := exists_stepAt_of_ready defaultParams hs
    have steps (n : Nat) : stepN (n + 1) s = stepN n u := stepN_succ_of_step n hu
    have first : stepN 0 s = .next s := rfl
    rcases loopThenExit_succ fuel hs hu with ⟨ready, goesOn⟩ | ⟨-, ends⟩
    · obtain ⟨n, le, -, hn, before⟩ := ih ready (goesOn.symm.trans h)
      refine ⟨n + 1, by omega, fun _ => by omega, (steps n).trans hn, fun m hm => ?_⟩
      cases m with
      | zero => exact ⟨s, first, hs⟩
      | succ m => exact steps m ▸ before m (by omega)
    · refine ⟨1, by omega, fun _ => by omega, (steps 0).trans (ends.symm.trans h), fun m hm => ?_⟩
      obtain rfl : m = 0 := by omega
      exact ⟨s, first, hs⟩

theorem stepN_succ_enterRun {s : State} (h : s.engine = .idle ∨ s.engine = .halted) (n : Nat) :
    stepN (n + 1) (enterRun s) = stepN (n + 1) s := by
  have same : step (enterRun s) = step s := stepAt_enterRun defaultParams h
  rw [stepN, stepN, same]

/-- Settles O48: the first step enters the run, and the loop is its steps from there. -/
theorem runIsItsSteps : Obligations.RunIsItsSteps := by
  unfold Obligations.RunIsItsSteps
  intro s t h hrun
  rw [run_eq_loopThenExit h] at hrun
  obtain ⟨n, le, pos, hn, before⟩ := loopThenExit_eq_stepN (enterRun_ready s) hrun
  have entered (m : Nat) (hm : 0 < m) : stepN m (enterRun s) = stepN m s := by
    obtain ⟨m, rfl⟩ := Nat.exists_eq_succ_of_ne_zero hm.ne'
    exact stepN_succ_enterRun h m
  have hpos : 0 < n := pos (by decide)
  exact ⟨n, hpos, le, entered n hpos ▸ hn, fun m hm lt => entered m hm ▸ before m lt⟩

theorem step_of_ready_of_hlt {s : State} (hs : s.ready) (hop : memRead s.pc s = .ok opcHlt) :
    step s = .next { s with running := false, engine := .halted } :=
  hltStepHalts defaultParams s opcMul_legal hs hop

/-- A halted engine at a HLT is a fixed point of the machine. -/
theorem step_of_halted_of_hlt {s : State} (engine : s.engine = .halted) (flag : s.running = false)
    (hop : memRead s.pc s = .ok opcHlt) : step s = .next s := by
  have entered : step (enterRun s) = step s := stepAt_enterRun defaultParams (.inr engine)
  rw [← entered, step_of_ready_of_hlt (enterRun_ready s) hop, ← engine, ← flag]
  rfl

/-- Settles O50: the halted pc is at a HLT, so the one pass gives the state back. -/
theorem runAgainAfterHalt : Obligations.RunAgainAfterHalt := by
  unfold Obligations.RunAgainAfterHalt
  intro s hs engine
  have flag : s.running = false := by simpa [State.flagAgrees, engine] using hs.flag
  have same : step s = .next s := step_of_halted_of_hlt engine flag (memRead_eq_ok_iff.mpr (hs.haltedAtHlt engine))
  refine ⟨?_, same⟩
  rw [run_eq_loopThenExit (.inr engine)]
  have entered : stepAt defaultParams (enterRun s) = .next s := (stepAt_enterRun _ (.inr engine)).trans same
  rcases loopThenExit_succ 256 (enterRun_ready s) entered with ⟨ready, -⟩ | ⟨-, ends⟩
  · simp [State.ready, engine] at ready
  · exact ends

theorem stepN_of_fixed {s : State} (h : step s = .next s) (n : Nat) : stepN n s = .next s := by
  induction n with
  | zero => rfl
  | succ n ih => rw [stepN_succ_of_step n h, ih]

/-- A faulted engine reaches no state but its own. -/
theorem eq_of_stepN_of_faulted {s u : State} {k : FatalKind} (h : s.engine = .faulted k) {n : Nat}
    (hn : stepN n s = .next u) : u = s := by
  cases n with
  | zero => cases hn; rfl
  | succ n =>
    have fault : step s = .fault (.engineFaulted k) := cycle_of_faulted _ _ h
    simp [stepN, fault] at hn

/-- Where a step of a ready state ends the run, an unfaulted state reached from there is that state, at its HLT. -/
theorem eq_of_stepN_of_ended {s t u : State} (hs : s.ready) (h : step s = .next t) (ht : ¬ t.ready) {n : Nat}
    (hn : stepN n t = .next u) (safe : u.safe = true) : u = t ∧ t.engine = .halted ∧ t.running = false := by
  have effect : PassEffect defaultParams s t := passEffect_of_stepAt hs h
  cases effect with
  | fetchError | invalidRegister =>
    obtain rfl := eq_of_stepN_of_faulted rfl hn
    simp [State.safe] at safe
  | ldi | prn | mul | unknown => exact absurd hs ht
  | hlt fetch =>
    have fixed := step_of_halted_of_hlt (s := { s with running := false, engine := .halted }) rfl rfl
      (memRead_pc_of_fetchInstr_hlt fetch)
    cases (stepN_of_fixed fixed n).symm.trans hn
    exact ⟨rfl, rfl, rfl⟩

/-- The loop of a ready state whose steps reach an unfaulted state at a HLT ends there. -/
theorem loopThenExit_halts_of_reaches_hlt {n : Nat} {s u : State} {fuel : Nat} (hs : s.ready) (pos : 0 < fuel)
    (enough : 257 ≤ s.pc + fuel) (hn : stepN n s = .next u) (safe : u.safe = true)
    (hop : memRead u.pc u = .ok opcHlt) :
    ∃ t, loopThenExit defaultParams fuel s = .next t ∧ t.engine = .halted ∧ t.running = false ∧ t.pc = u.pc := by
  induction n generalizing s fuel with
  | zero =>
    obtain ⟨fuel, rfl⟩ := Nat.exists_eq_succ_of_ne_zero pos.ne'
    cases hn
    have halt : stepAt defaultParams u = .next _ := step_of_ready_of_hlt hs hop
    rcases loopThenExit_succ fuel hs halt with ⟨ready, -⟩ | ⟨-, ends⟩
    · simp [State.ready] at ready
    · exact ⟨_, ends, rfl, rfl, rfl⟩
  | succ n ih =>
    obtain ⟨fuel, rfl⟩ := Nat.exists_eq_succ_of_ne_zero pos.ne'
    obtain ⟨s', h⟩ := exists_stepAt_of_ready defaultParams hs
    have rest : stepN n s' = .next u := (stepN_succ_of_step n h).symm.trans hn
    rcases loopThenExit_succ fuel hs h with ⟨ready, goesOn⟩ | ⟨ended, ends⟩
    · obtain ⟨inMemory, forward⟩ := stepAt_pc_lt_of_ready hs h ready
      rw [goesOn]
      exact ih ready (by omega) (by omega) rest
    · obtain ⟨rfl, engine, flag⟩ := eq_of_stepN_of_ended hs h ended rest safe
      exact ⟨_, ends, engine, flag, rfl⟩

/-- Settles O49: entering the run changes neither the pc nor memory, so it reaches a HLT too. -/
theorem reachingHltEndsTheRun : Obligations.ReachingHltEndsTheRun := by
  unfold Obligations.ReachingHltEndsTheRun
  intro n s u h hn safe hop
  rw [run_eq_loopThenExit h]
  have halts {n : Nat} {v : State} := loopThenExit_halts_of_reaches_hlt (n := n) (u := v) (enterRun_ready s)
    (fuel := 257) (by decide) (Nat.le_add_left _ _)
  cases n with
  | zero =>
    cases hn
    exact halts (n := 0) (v := enterRun s) rfl rfl hop
  | succ n => exact halts ((stepN_succ_enterRun h n).trans hn) safe hop

end Sys2Proof.Machine
end

section
/-! SUPPORT. The load of a program (20_memory.md R44), and the placing of one instruction for the next step: both store
a list of bytes from an address on. -/

namespace Sys2Proof.Machine

theorem placeBytes_cons_of_lt {a : Nat} (h : a < 256) (b : Byte) (bs : List Byte) (s : State) :
    State.placeBytes (b :: bs) a s = State.placeBytes bs (a + 1) { s with mem := s.mem.put a b } := by
  rw [State.placeBytes, if_pos h]

theorem placeBytes_of_past_end {a : Nat} (h : 256 ≤ a) (bs : List Byte) (s : State) : State.placeBytes bs a s = s := by
  induction bs generalizing a with
  | nil => rfl
  | cons b bs ih => rw [State.placeBytes, if_neg (by omega), ih (by omega)]

/-- Placing bytes changes memory alone. -/
theorem placeBytes_frame (bs : List Byte) (a : Nat) (s : State) :
    State.placeBytes bs a s = { s with mem := (State.placeBytes bs a s).mem } := by
  induction bs generalizing a s with
  | nil => rfl
  | cons b bs ih =>
    rcases Nat.lt_or_ge a 256 with h | h
    · rw [placeBytes_cons_of_lt h]
      exact ih _ _
    · rw [placeBytes_of_past_end h]

theorem placeBytes_wf (bs : List Byte) (a : Nat) {s : State} (hs : s.mem.wf) : (State.placeBytes bs a s).mem.wf := by
  induction bs generalizing a s with
  | nil => exact hs
  | cons b bs ih =>
    rcases Nat.lt_or_ge a 256 with h | h
    · rw [placeBytes_cons_of_lt h]
      exact ih _ (Memory.put_wf _ _ _ h hs)
    · rwa [placeBytes_of_past_end h]

theorem placeBytes_get_outside {bs : List Byte} {a x : Nat} {s : State} (hs : s.mem.wf)
    (outside : x < a ∨ a + bs.length ≤ x) : (State.placeBytes bs a s).mem.get x = s.mem.get x := by
  induction bs generalizing a s with
  | nil => rfl
  | cons b bs ih =>
    rw [List.length_cons] at outside
    rcases Nat.lt_or_ge a 256 with h | h
    · rw [placeBytes_cons_of_lt h, ih (Memory.put_wf _ _ _ h hs) (by omega), Memory.get_put _ _ _ _ hs.1,
        if_neg (by omega)]
    · rw [placeBytes_of_past_end h]

theorem placeBytes_get_inside {bs : List Byte} {a k : Nat} {s : State} (hs : s.mem.wf) (hk : k < bs.length)
    (fits : a + k < 256) : (State.placeBytes bs a s).mem.get (a + k) = bs[k] := by
  induction bs generalizing a k s with
  | nil => exact absurd hk (Nat.not_lt_zero k)
  | cons b bs ih =>
    have h : a < 256 := by omega
    have hput : ({ s with mem := s.mem.put a b } : State).mem.wf := Memory.put_wf s.mem a b h hs
    rw [placeBytes_cons_of_lt h]
    cases k with
    | zero =>
      rw [placeBytes_get_outside hput (by omega), Memory.get_put _ _ _ _ hs.1, if_pos (Nat.add_zero a),
        List.getElem_cons_zero]
    | succ k =>
      rw [List.getElem_cons_succ, ← ih hput (by simpa using hk) (show a + 1 + k < 256 by omega),
        Nat.add_right_comm, Nat.add_assoc]

@[simp] theorem ofInt_zext (b : Byte) : BitVec.ofInt 8 (zext b) = b := by
  simp [zext]

theorem loadFrom_cons_of_lt {a : Nat} (h : a < 256) (b : Byte) (bs : List Byte) (s : State) :
    loadFrom (b :: bs) a s = loadFrom bs (a + 1) { s with mem := s.mem.put a b } := by
  simp [loadFrom, memWrite_of_lt h, bind, Except.bind]

/-- A program that fits is placed byte by byte; one that does not raises the error of address 256. -/
theorem loadFrom_eq_ok {bs : List Byte} {a : Nat} (fits : a + bs.length ≤ 256) (s : State) :
    loadFrom bs a s = .ok (State.placeBytes bs a s) := by
  induction bs generalizing a s with
  | nil => rfl
  | cons b bs ih =>
    rw [List.length_cons] at fits
    rw [loadFrom_cons_of_lt (by omega), placeBytes_cons_of_lt (by omega), ih (by omega)]

theorem loadFrom_eq_error {bs : List Byte} {a : Nat} (inside : a ≤ 256) (long : 256 < a + bs.length) (s : State) :
    loadFrom bs a s = .error (.outOfBounds 256) := by
  induction bs generalizing a s with
  | nil => rw [List.length_nil] at long; omega
  | cons b bs ih =>
    rw [List.length_cons] at long
    rcases Nat.lt_or_eq_of_le inside with h | rfl
    · rw [loadFrom_cons_of_lt h, ih h (by omega)]
    · simp [loadFrom, memWrite_of_ge le_rfl, bind, Except.bind]

theorem load_of_loadFrom_ok {prog : List Byte} {s t : State} (idle : s.engine = .idle)
    (h : loadFrom prog 0 s = .ok t) : load prog s = .next t := by
  simp [load, idle, h]

theorem load_of_loadFrom_error {prog : List Byte} {s : State} {k : FatalKind} (idle : s.engine = .idle)
    (h : loadFrom prog 0 s = .error k) : load prog s = .refused (.launchRefused k) := by
  simp [load, idle, h]

/-- Settles O52: the load is `placeBytes` from address 0 where the program fits. -/
theorem loadWritesFromAddressZero : Obligations.LoadWritesFromAddressZero := by
  unfold Obligations.LoadWritesFromAddressZero
  refine fun prog s hs => ⟨fun idle fits => ?_, fun idle long => ?_, fun notIdle => ?_⟩
  · have fits0 : 0 + prog.length ≤ 256 := by omega
    refine ⟨_, load_of_loadFrom_ok idle (loadFrom_eq_ok fits0 s), placeBytes_frame prog 0 s, placeBytes_wf prog 0 hs,
      fun i hi => ?_, fun a ha => ?_⟩
    · have get := placeBytes_get_inside hs hi (show 0 + i < 256 by omega)
      rw [Nat.zero_add] at get
      rw [memRead_of_lt (by omega), get]
    · rw [memRead, memRead, placeBytes_get_outside hs (.inr (by omega))]
  · exact load_of_loadFrom_error idle (loadFrom_eq_error (Nat.zero_le 256) (by omega) s)
  · rcases he : s.engine with _ | _ | _ | k
    · exact absurd he notIdle
    all_goals simp [load, he]

/-- What is placed at the pc is what fetch_unit reads there. -/
theorem fetchInstr_placeBytes {bs rest : List Byte} {i : Instr} {s : State} (hs : s.mem.wf)
    (hd : decode bs = .ok (i, rest)) (fits : s.pc + i.length ≤ 256) :
    fetchInstr opcMul (State.placeBytes bs s.pc s) = .ok i := by
  obtain ⟨hw, rfl⟩ := encodeOfDecode opcMul bs i rest opcMul_legal hd
  refine readInstr_of_readsAs opcMul_legal hw fun k hk => ?_
  have inside : s.pc + k < 256 := by rw [length_encodeAt] at hk; omega
  have placed := placeBytes_get_inside hs (by simp at hk ⊢; omega) inside (bs := encodeAt opcMul i ++ rest)
  rw [placeBytes_frame, memRead_of_lt inside, placed, List.getElem_append_left hk]

/-- A state whose next step runs a pass: its engine has not faulted, and the flag is true once a run is entered. -/
def State.passDue (s : State) : Prop := (∀ k, s.engine ≠ .faulted k) ∧ (beginPass s).running = true

theorem cycle_of_passDue (opc : Byte) (ex : Instr → State → Result) {s : State} (h : s.passDue) :
    cycle opc ex s = closeLoop (loopPass opc ex (beginPass s)) := by
  obtain ⟨unfaulted, flag⟩ := h
  rcases he : s.engine with _ | _ | _ | k
  · simp [cycle, he, flag]
  · simp [cycle, he, flag]
  · simp [cycle, he, flag]
  · exact absurd he (unfaulted k)

/-- An armed state has a pass due, whatever its memory and pc. -/
theorem armed_passDue (s : State) (m : Memory) (a : Nat) : State.passDue { s.armed with mem := m, pc := a } := by
  rcases he : s.engine with _ | _ | _ | k <;> simp [State.armed, State.passDue, beginPass, he]

@[simp] theorem armed_pc (s : State) : s.armed.pc = s.pc := by unfold State.armed; split <;> rfl
@[simp] theorem armed_mem (s : State) : s.armed.mem = s.mem := by unfold State.armed; split <;> rfl

theorem fetchInstr_beginPass (opc : Byte) (s : State) : fetchInstr opc (beginPass s) = fetchInstr opc s := by
  unfold beginPass
  split <;> rfl

theorem decode_of_decodeTableWord {nbits w : Nat} {i : Instr} (h : decodeTableWord nbits w = some i) :
    ∃ rest, decode (tableWordBytes nbits w) = .ok (i, rest) := by
  cases hd : decode (tableWordBytes nbits w) with
  | error e => simp [decodeTableWord, hd] at h
  | ok r =>
    obtain rfl : r.1 = i := by simpa [decodeTableWord, hd] using h
    exact ⟨r.2, rfl⟩

/-- Every instruction fits into memory at address 0. -/
theorem length_le_three (i : Instr) : i.length ≤ 3 := by
  cases i <;> simp [Instr.length, Instr.kind, Kind.operandCount]

/-- The word is placed at a pc where its instruction fits. -/
theorem withFetchWord_eq_placeBytes (s : State) {nbits w : Nat} {i : Instr} (h : decodeTableWord nbits w = some i) :
    ∃ a, a + i.length ≤ 256 ∧
      s.withFetchWord nbits w = State.placeBytes (tableWordBytes nbits w) a { s.armed with pc := a } := by
  by_cases fits : s.pc + i.length ≤ 256
  · refine ⟨s.pc, fits, ?_⟩
    simp only [State.withFetchWord, h, if_pos fits, armed_pc]
    rw [← armed_pc s]
  · have short := length_le_three i
    refine ⟨0, by omega, ?_⟩
    simp [State.withFetchWord, h, fits]

/-- Settles O55: the placed bytes are fetched, and the engine is ready for the pass. -/
theorem placedWordRunsNext : Obligations.PlacedWordRunsNext := by
  unfold Obligations.PlacedWordRunsNext
  intro s nbits w i hs hw
  obtain ⟨rest, hd⟩ := decode_of_decodeTableWord hw
  obtain ⟨a, fits, placed⟩ := withFetchWord_eq_placeBytes s hw
  have wf : ({ s.armed with pc := a } : State).mem.wf := by simpa using hs
  have fetch : fetchInstr opcMul (s.withFetchWord nbits w) = .ok i := placed ▸ fetchInstr_placeBytes wf hd fits
  have due : (s.withFetchWord nbits w).passDue := by
    rw [placed, placeBytes_frame]
    exact armed_passDue s _ a
  rw [step, cycle_of_passDue _ _ due, loopPass_of_fetch ((fetchInstr_beginPass _ _).trans fetch)]

end Sys2Proof.Machine
end
